-- ==== Sys2Proof/Word.lean ====
section
/-! DEFINITION. The two word types of the Number Theory Engine (spec/00_scope.md R5, R7):
the 32-bit bus word and the W-bit operand, seen as its 32-bit words. -/

namespace Sys2Proof

/-- A 32-bit word of the host register bus (R7, R64): command words, data words, the five 32-bit registers. -/
abbrev Word := BitVec 32

/-- A W-bit register as its NW = W / 32 words, word 0 (the least significant 32 bits) first (R7, R74).
A register of the machine has exactly NW words; `State.WidthOk` (Safety) says so and every step keeps it. -/
abbrev Operand := List Word

end Sys2Proof
end

