-- ==== Sys2Proof/Config.lean ====
section
/-! DEFINITION. What the spec leaves to the implementation: the width of the instance that `State.reset`
describes, and the free values of the working registers. -/

namespace Sys2Proof.Config

/-- NW of the instance `Machine.State.reset` describes: W = 32 * 9 = 288, which 00_scope.md R5 names as the
smallest width for the document's default key size.
DESIGN CHOICE (log entry 1): W is the spec's one open parameter (R5, 92 D1). Every state carries its own NW
(`Machine.State.nw`) and `Machine.State.resetOf` takes it as an argument, so no statement about a step rests on
this number. -/
def nw : Nat := 9

/-- Free values of the natural-number working registers (10_state.md R41: unspecified outside a running command;
93 U15: any value). The first argument is the number of the free record drawn (`Machine.State.fresh`), the second
the register. Nothing in Lean can evaluate it (log entry 4). -/
opaque freeNat : Nat → Nat → Nat

/-- Free values of the signed working registers t, t' (R41, U15; log entry 4). -/
opaque freeInt : Nat → Nat → Int

/-- Free value of the phase `ph` outside a running command (R41, U15; log entry 4): true reads as ROUND. -/
opaque freePhaseIsRound : Nat → Bool

end Sys2Proof.Config
end

