-- ==== Sys2Proof/Syntax.lean ====
section
/-! DEFINITION. Syntax: the five commands, the host's bus accesses, the registers a bus access can name, the host
statements of 30_encoding.md R100 and R101, and the events of the four agents (00_scope.md R11). -/

namespace Sys2Proof

/-- The commands of the NTE, one per row of spec/opcode_table.json (30_encoding.md R91). No command has an operand
field: operands are taken from fixed banks (R90, 10_state.md R21). -/
inductive Instr where
  | mulmod
  | powmod
  | isprime
  | gcd
  | modinv
  deriving DecidableEq, Repr

/-- The four operand banks (10_state.md R21). -/
inductive Bank where
  | A
  | B
  | E
  | M
  deriving DecidableEq, Repr

/-- A register word the host can name by an implemented offset (20_memory.md R61). -/
inductive RegWord where
  | cmd
  | status
  | ctrl
  | iters
  | config
  | bank (b : Bank) (i : Nat)
  | result (i : Nat)
  deriving DecidableEq, Repr

/-- The direction of a bus access, with the data of a write (10_state.md R44, 30_encoding.md R100). -/
inductive BusOp where
  | read
  | write (d : Word)
  deriving DecidableEq, Repr

/-- One host access: 13-bit byte offset (20_memory.md R60), size in bytes (R64), direction and data. -/
structure BusAccess where
  addr : BitVec 13
  size : Nat
  op   : BusOp
  deriving DecidableEq, Repr

/-- The statements of a host program (30_encoding.md R100, R101). `wait` carries how many reads of STATUS it made
before the one that returned DONE = 1: R101 does not fix that number. -/
inductive HostStmt where
  | wr (addr : BitVec 13) (value : Word)
  | rd (addr : BitVec 13)
  | load (x : Bank) (value : Nat)
  | setIters (k : Word)
  | command (i : Instr)
  | wait (readsBefore : Nat)
  | result
  | ack
  | clrHaz
  deriving DecidableEq, Repr

/-- One step of one agent (00_scope.md R11): the host makes an access, the engine takes its `Advance` step, the
random source answers with `rnd_val`, the environment drives `rst`. -/
inductive Event where
  | bus (acc : BusAccess)
  | advance
  | respond (w : Nat)
  | rst (asserted : Bool)
  deriving DecidableEq, Repr

end Sys2Proof
end

