-- ==== Sys2Proof/Machine/AddressMap.lean ====
section
/-! DEFINITION. The host address map and the legality of a bus access (20_memory.md R60 to R65). -/

namespace Sys2Proof

/-- The word index of an offset inside the implemented part of a window that begins at `base` (R61: the first NW
words of each window are implemented). -/
def windowIndex (nw base off : Nat) : Option Nat :=
  if base ≤ off ∧ off < base + 4 * nw then some ((off - base) / 4) else none

/-- The base offset of a bank's window (R61). -/
def bankBase : Bank → Nat
  | .A => 0x0400
  | .B => 0x0800
  | .E => 0x0C00
  | .M => 0x1000

/-- The base offset of the window of the result bank R (R61). -/
def resultBase : Nat := 0x1400

/-- The address map of R61 on a byte offset whose low two bits are 0: the register word it names, or none where the
offset is unimplemented. -/
def regAt (nw off : Nat) : Option RegWord :=
  if off = 0x0000 then some .cmd
  else if off = 0x0004 then some .status
  else if off = 0x0008 then some .ctrl
  else if off = 0x000C then some .iters
  else if off = 0x0010 then some .config
  else if off < 0x0400 then none
  else if off < 0x0800 then (windowIndex nw 0x0400 off).map (.bank .A)
  else if off < 0x0C00 then (windowIndex nw 0x0800 off).map (.bank .B)
  else if off < 0x1000 then (windowIndex nw 0x0C00 off).map (.bank .E)
  else if off < 0x1400 then (windowIndex nw 0x1000 off).map (.bank .M)
  else if off < 0x1800 then (windowIndex nw 0x1400 off).map .result
  else none

/-- The byte offset of a register word (R61; the symbolic offsets of 30_encoding.md R100). -/
def offsetOf : RegWord → Nat
  | .cmd => 0x0000
  | .status => 0x0004
  | .ctrl => 0x0008
  | .iters => 0x000C
  | .config => 0x0010
  | .bank b i => bankBase b + 4 * i
  | .result i => resultBase + 4 * i

/-- R64: every access moves exactly one 32-bit word. -/
def BusAccess.sizeOk (acc : BusAccess) : Bool := acc.size == 4

/-- R65: an access must have `addr[1:0] = 0`. -/
def BusAccess.alignOk (acc : BusAccess) : Bool := acc.addr.extractLsb' 0 2 == 0#2

/-- The register word an access reaches on a machine of NW words a bank, or none where the bus answers `error`: wrong
size (R64), misaligned (R65) or unimplemented offset (R62). -/
def accessTarget (nw : Nat) (acc : BusAccess) : Option RegWord :=
  if acc.sizeOk && acc.alignOk then regAt nw acc.addr.toNat else none

/-- `WR addr, value` (30_encoding.md R100): one bus write of a 32-bit word, `MemWrite(addr, 4, value)`. -/
def busWrite (addr : BitVec 13) (value : Word) : BusAccess := ⟨addr, 4, .write value⟩

/-- `RD addr` (30_encoding.md R100): one bus read of a 32-bit word, `MemRead(addr, 4)`. -/
def busRead (addr : BitVec 13) : BusAccess := ⟨addr, 4, .read⟩

end Sys2Proof
end

