-- ==== Sys2Proof/WellFormed.lean ====
section
/-! DEFINITION. Well-formedness of the syntax: widths the spec allows (00_scope.md R5), commands (30_encoding.md R90),
bus accesses that are answered `ok` (20_memory.md R61 to R65), host statements (30_encoding.md R101). -/

namespace Sys2Proof

/-- The widths of 00_scope.md R5: W = 32 * NW with 1 <= NW <= 256. -/
def legalWidth (nw : Nat) : Bool := 1 ≤ nw && nw ≤ 256

/-- A command word has no register field, no immediate, no mode bit and no condition field (30_encoding.md R90), so
every command is well-formed. -/
def Instr.wellFormed : Instr → Bool
  | .mulmod => true
  | .powmod => true
  | .isprime => true
  | .gcd => true
  | .modinv => true

/-- An access the bus answers `ok`: one 32-bit word, aligned, at an implemented offset (20_memory.md R61, R62, R64, R65). -/
def BusAccess.wellFormed (nw : Nat) (acc : BusAccess) : Bool :=
  acc.sizeOk && acc.alignOk && (regAt nw acc.addr.toNat).isSome

/-- A host statement whose expansion makes only well-formed accesses: a `LOAD` value is below 2^W (30_encoding.md R101),
the offset of a `WR` or `RD` is aligned and implemented. -/
def HostStmt.wellFormed (nw : Nat) : HostStmt → Bool
  | .wr addr value => (busWrite addr value).wellFormed nw
  | .rd addr => (busRead addr).wellFormed nw
  | .load _ value => value < 2 ^ (32 * nw)
  | .setIters _ => true
  | .command i => i.wellFormed
  | .wait _ => true
  | .result => true
  | .ack => true
  | .clrHaz => true

end Sys2Proof
end

