-- ==== Sys2Proof/Decode.lean ====
section
/-! DEFINITION. The command decoder, total on all 32-bit words and rejecting by name (30_encoding.md R90 to R92, R96), the
encoder, and the host's view of both. -/

namespace Sys2Proof

/-- Why a command word is illegal (30_encoding.md R92). -/
inductive IllegalWord where
  /-- `CMD[31:8]` is not 0, whatever OP is (the first test of R96). -/
  | zeroFieldNotZero
  /-- `CMD[7:0]` is none of 0x01 to 0x05 (the `otherwise` of R96). -/
  | unknownOpcode
  deriving DecidableEq, Repr

/-- What the decoder says of a command word: one of the five commands, or illegal, with the reason. -/
inductive Decoded where
  | command (i : Instr)
  | illegal (why : IllegalWord)
  deriving DecidableEq, Repr

/-- Field ZERO of a command word, bits 31:8 (30_encoding.md R90). -/
def cmdZero (w : Word) : BitVec 24 := w.extractLsb' 8 24

/-- Field OP of a command word, bits 7:0 (30_encoding.md R90). -/
def cmdOp (w : Word) : BitVec 8 := w.extractLsb' 0 8

/-- The opcode map of 30_encoding.md R91. -/
def decodeOp (op : BitVec 8) : Option Instr :=
  if op = 0x01#8 then some .mulmod
  else if op = 0x02#8 then some .powmod
  else if op = 0x03#8 then some .isprime
  else if op = 0x04#8 then some .gcd
  else if op = 0x05#8 then some .modinv
  else none

/-- `decode(CMD)` of 30_encoding.md R96: the ZERO field is tested first, then OP selects the command. -/
def decode (w : Word) : Decoded :=
  if cmdZero w ≠ 0#24 then .illegal .zeroFieldNotZero
  else
    match decodeOp (cmdOp w) with
    | some i => .command i
    | none => .illegal .unknownOpcode

/-- The opcode of a command (30_encoding.md R91). -/
def opcode : Instr → BitVec 8
  | .mulmod => 0x01#8
  | .powmod => 0x02#8
  | .isprime => 0x03#8
  | .gcd => 0x04#8
  | .modinv => 0x05#8

/-- The command word of a command: format C, ZERO above OP (30_encoding.md R90, R91). -/
def encode (i : Instr) : Word := 0x000000#24 ++ opcode i

/-- The command, if the decoder gives one. -/
def Decoded.command? : Decoded → Option Instr
  | .command i => some i
  | .illegal _ => none

/-- The command word the low `nbits` bits of `w` stand for, the bits above them 0. There is one command length, 32 bits
(30_encoding.md R90), and the bus carries words as numbers (20_memory.md R74), so there is no byte order to apply. -/
def tableWord (nbits w : Nat) : Word := BitVec.ofNat 32 (w % 2 ^ nbits)

/-- The instruction the decoder reads from a row's bits, numbered as spec/opcode_table.json numbers them. -/
def decodeTableWord (nbits w : Nat) : Option Instr := (decode (tableWord nbits w)).command?

end Sys2Proof
end

