-- ==== Sys2Proof/Machine/State.lean ====
section
/-! DEFINITION. The state of the NTE: everything 10_state.md R20 lists, and the model's own record of the environment
(the schedule of the agents, the last bus answer, the level of `rst`, the counter of free values). -/

namespace Sys2Proof.Machine

/-- The sequencer state SEQ (10_state.md R40). -/
inductive Seq where
  | idle
  | run
  | wait
  deriving DecidableEq, Repr

/-- The hidden phase `ph` (10_state.md R41). -/
inductive Phase where
  | start
  | round
  deriving DecidableEq, Repr

/-- The working registers of POWMOD (10_state.md R41, 40_mulmod_powmod.md R113): accumulator, running power, remaining
exponent. -/
structure PowRegs where
  v : Nat
  p : Nat
  x : Nat
  deriving DecidableEq, Repr

/-- The working registers of ISPRIME (10_state.md R41, 41_isprime.md R131 to R134, R141). -/
structure PrimeRegs where
  n     : Nat
  k     : Nat
  s     : Nat
  r     : Nat
  i     : Nat
  wdraw : Nat
  y     : Nat
  j     : Nat
  a     : Nat
  deriving DecidableEq, Repr

/-- The working registers of GCD (10_state.md R41, 42_gcd_modinv.md R160). -/
structure GcdRegs where
  a : Nat
  b : Nat
  deriving DecidableEq, Repr

/-- The working registers of MODINV (10_state.md R41, 42_gcd_modinv.md R163): r and r' are never negative, t and t' are
signed. -/
structure InvRegs where
  r  : Nat
  r' : Nat
  t  : Int
  t' : Int
  q  : Nat
  deriving DecidableEq, Repr

/-- All the working registers of 10_state.md R41, hidden from the host. -/
structure Work where
  ph    : Phase
  pow   : PowRegs
  prime : PrimeRegs
  gcd   : GcdRegs
  inv   : InvRegs
  deriving DecidableEq, Repr

/-- The fields of STATUS (10_state.md R31). Bits 7 and 31:12 are reserved and read 0; `Status.word` (Flags) is the 32-bit
word the host reads. -/
structure Status where
  busy    : Bool
  done    : Bool
  err     : Bool
  prime   : Bool
  noinv   : Bool
  haz     : Bool
  rndwait : Bool
  errcode : BitVec 4
  deriving DecidableEq, Repr

/-- The one field of CTRL (10_state.md R29). Bits 31:1 are reserved and read 0; `Ctrl.word` (Flags) is the 32-bit word the
host reads. -/
structure Ctrl where
  ien : Bool
  deriving DecidableEq, Repr

/-- What the host bus answers an access with (10_state.md R44): `ok`, with `rdata` for a read, or `error`, which carries no
data (20_memory.md R62). -/
inductive BusAnswer where
  | okData (rdata : Word)
  | ok
  | error
  deriving DecidableEq, Repr

/-- The state of the machine. The fields from `nw` to `rndBound` are the NTE's own (10_state.md R20); the last four are the
model's record of the environment (log entries 2, 3, 4, 9). -/
structure State where
  /-- NW = W / 32 (00_scope.md R5). It is a constant of the instance: no step changes it. CONFIG is computed from it. -/
  nw       : Nat
  /-- Operand bank A (10_state.md R21). -/
  a        : Operand
  /-- Operand bank B (10_state.md R21). -/
  b        : Operand
  /-- Operand bank E (10_state.md R21). -/
  e        : Operand
  /-- Operand bank M (10_state.md R21). -/
  m        : Operand
  /-- Result bank R (10_state.md R22). -/
  r        : Operand
  /-- CMD, the last command word accepted (10_state.md R28). -/
  cmd      : Word
  /-- STATUS (10_state.md R31). -/
  status   : Status
  /-- CTRL (10_state.md R29). -/
  ctrl     : Ctrl
  /-- ITERS (10_state.md R32). -/
  iters    : Word
  /-- SEQ, hidden (10_state.md R40). -/
  seq      : Seq
  /-- The working registers, hidden (10_state.md R41). -/
  work     : Work
  /-- RND_BOUND, hidden, W bits (10_state.md R42). -/
  rndBound : Operand
  /-- The level of the input `rst` (10_state.md R44, 70_reset_and_hazards.md R210). -/
  rst      : Bool
  /-- The answer of the bus to the host's latest access, none before the first one (10_state.md R44, 20_memory.md R66, R67). -/
  answer   : Option BusAnswer
  /-- The agents' steps still to come, in order (00_scope.md R11, R12): free, so a statement about every state is a
  statement about every interleaving, every host program and every sequence of draw answers. -/
  schedule : List Event
  /-- How many free working-register records have been drawn (log entry 4). -/
  fresh    : Nat
  deriving DecidableEq, Repr

/-- Why a step could stop with a fault. THERE IS NO SUCH REASON, so the type has no constructor: every command ends in a
completion, normal or with an error code (60_exceptions.md R180), every access of the bus is answered `ok` or `error` and
the machine goes on (20_memory.md R67, R81), and where no agent has a step the state stands still (70_reset_and_hazards.md
R228). Safe: nothing is stopped. -/
inductive Fault where
  deriving DecidableEq, Repr

/-- Why a step could refuse. -/
inductive Refusal where
  /-- An instruction that has no meaning yet. Raised by no arm of `exec` (all five commands have their meaning); safe. -/
  | notModelled (mnemonic : String)
  deriving DecidableEq, Repr

/-- STATUS after reset: every field 0 (10_state.md R31, R50). -/
def Status.reset : Status :=
  { busy := false, done := false, err := false, prime := false, noinv := false, haz := false, rndwait := false,
    errcode := 0#4 }

/-- The working registers of the state right after reset. 10_state.md R50 leaves them unspecified and unobservable.
DESIGN CHOICE (log entry 5): all 0, phase START. -/
def Work.reset : Work :=
  { ph := .start
    pow := { v := 0, p := 0, x := 0 }
    prime := { n := 0, k := 0, s := 0, r := 0, i := 0, wdraw := 0, y := 0, j := 0, a := 0 }
    gcd := { a := 0, b := 0 }
    inv := { r := 0, r' := 0, t := 0, t' := 0, q := 0 } }

/-- A W-bit register that holds 0: NW words of 0. -/
def zeroOperand (nw : Nat) : Operand := List.replicate nw 0#32

/-- The machine of NW words a bank right after reset, `rst` released (10_state.md R50, 70_reset_and_hazards.md R210): nothing
runs and nothing is scheduled. -/
def State.resetOf (nw : Nat) : State :=
  { nw := nw
    a := zeroOperand nw
    b := zeroOperand nw
    e := zeroOperand nw
    m := zeroOperand nw
    r := zeroOperand nw
    cmd := 0#32
    status := Status.reset
    ctrl := { ien := false }
    iters := 0#32
    seq := .idle
    work := Work.reset
    rndBound := zeroOperand nw
    rst := false
    answer := none
    schedule := []
    fresh := 0 }

/-- The machine right after reset, for the width `Config.nw` (log entry 1). -/
def State.reset : State := State.resetOf Config.nw

end Sys2Proof.Machine
end

