-- ==== Sys2Proof/Machine/Operands.lean ====
section
/-! DEFINITION. Operands: a W-bit register as a number and as its 32-bit words (00_scope.md R7, 30_encoding.md R93), the
operand banks by name (10_state.md R21), and the arithmetic every command is made of (00_scope.md R8, R10). -/

namespace Sys2Proof

/-- The unsigned integer a W-bit register holds: the sum of X.w[i] * 2^(32*i) (R7, R93). -/
def Operand.val : Operand → Nat
  | [] => 0
  | w :: ws => w.toNat + 2 ^ 32 * Operand.val ws

/-- A number written to a register of `nw` words: word i is v[32*i+31 : 32*i], zeros above (R7, zext_W). What lies above
bit W - 1 has no place in the register; no command produces such a value (00_scope.md R5, R10). -/
def Operand.ofNat : Nat → Nat → Operand
  | 0, _ => []
  | nw + 1, v => BitVec.ofNat 32 v :: Operand.ofNat nw (v / 2 ^ 32)

/-- Word i of a register, X.w[i] (R7). -/
def Operand.word (x : Operand) (i : Nat) : Word := x.getD i 0#32

/-- Word i replaced, the other words unchanged (20_memory.md R71). -/
def Operand.setWord (x : Operand) (i : Nat) (d : Word) : Operand := x.set i d

namespace Machine

/-- The operand bank of a name (10_state.md R21). -/
def State.bank (s : State) : Bank → Operand
  | .A => s.a
  | .B => s.b
  | .E => s.e
  | .M => s.m

/-- An operand bank replaced. The four banks are distinct storage (R21). -/
def State.setBank (s : State) (x : Bank) (v : Operand) : State :=
  match x with
  | .A => { s with a := v }
  | .B => { s with b := v }
  | .E => { s with e := v }
  | .M => { s with m := v }

/-- W, the operand width in bits (00_scope.md R5). -/
def State.width (s : State) : Nat := 32 * s.nw

/-- `bitlen(x)` (00_scope.md R9): 0 for 0, otherwise the position of the highest set bit plus one. -/
def bitLen (x : Nat) : Nat := if x = 0 then 0 else Nat.log2 x + 1

/-- `mulmod(a, b, m) = (a * b) mod m`, exact for every m > 0 (40_mulmod_powmod.md R110, R111). -/
def mulMod (a b m : Nat) : Nat := (a * b) % m

/-- A `while` loop of the rules' pseudocode: `body` while `cond`, at most `fuel` passes. Every use gives at least as much
fuel as the loop makes passes (`Laws.whileLoop_exits`). -/
def whileLoop {α : Type} (cond : α → Bool) (body : α → α) : Nat → α → α
  | 0, g => g
  | fuel + 1, g => if cond g then whileLoop cond body fuel (body g) else g

end Machine

end Sys2Proof
end

