-- ==== Sys2Proof/Machine/Flags.lean ====
section
/-! DEFINITION. The flags: STATUS and CTRL as the words the host reads (10_state.md R29, R31), what each event does to the
fields of STATUS (R33 to R38), and the three outputs that are functions of state (R38, R39, R42). -/

namespace Sys2Proof.Machine

/-- STATUS as the host reads it (10_state.md R31): bits 31:12 and 7 are reserved and read 0. -/
def Status.word (f : Status) : Word :=
  0#20 ++ f.errcode ++ 0#1 ++ BitVec.ofBool f.rndwait ++ BitVec.ofBool f.haz ++ BitVec.ofBool f.noinv
    ++ BitVec.ofBool f.prime ++ BitVec.ofBool f.err ++ BitVec.ofBool f.done ++ BitVec.ofBool f.busy

/-- CTRL as the host reads it (10_state.md R29): bits 31:1 are reserved and read 0. -/
def Ctrl.word (c : Ctrl) : Word := 0#31 ++ BitVec.ofBool c.ien

/-- CTRL after a host write of d: IEN is d[0], bits d[31:1] are ignored (20_memory.md R70). -/
def Ctrl.ofWord (d : Word) : Ctrl := { ien := d.getLsbD 0 }

/-- CONFIG as the host reads it (10_state.md R30): W in bits 15:0, 0 above. -/
def State.configWord (s : State) : Word := 0#16 ++ BitVec.ofNat 16 s.width

/-- A host write of d to STATUS (20_memory.md R69): bit 1 clears DONE, bit 5 clears HAZ, every other bit is ignored. -/
def Status.writeOneToClear (f : Status) (d : Word) : Status :=
  { f with
    done := if d.getLsbD 1 then false else f.done
    haz := if d.getLsbD 5 then false else f.haz }

/-- A host write was ignored because BUSY was 1 (10_state.md R37). -/
def Status.setHaz (f : Status) : Status := { f with haz := true }

/-- The flags an accept writes (30_encoding.md R95): DONE, ERR, ERRCODE, PRIME and NOINV cleared, BUSY set. HAZ and RNDWAIT
are not changed. -/
def Status.accepted (f : Status) : Status :=
  { f with done := false, err := false, errcode := 0#4, prime := false, noinv := false, busy := true }

/-- The flags a normal completion writes (60_exceptions.md R183). SEQ becomes IDLE, so RNDWAIT is 0 (10_state.md R38). -/
def Status.completed (f : Status) (prime noinv : Bool) : Status :=
  { f with prime := prime, noinv := noinv, err := false, errcode := 0#4, done := true, busy := false, rndwait := false }

/-- The flags an error completion writes (60_exceptions.md R184). SEQ becomes IDLE, so RNDWAIT is 0 (10_state.md R38). -/
def Status.failed (f : Status) (code : BitVec 4) : Status :=
  { f with prime := false, noinv := false, err := true, errcode := code, done := true, busy := false, rndwait := false }

/-- STATUS.RNDWAIT follows SEQ (10_state.md R38). -/
def Status.withRndwait (f : Status) (v : Bool) : Status := { f with rndwait := v }

/-- Output `irq` (10_state.md R39, 60_exceptions.md R191). -/
def State.irq (s : State) : Bool := s.ctrl.ien && s.status.done

/-- Output `rnd_req`, equal to STATUS.RNDWAIT (10_state.md R38, R44). -/
def State.rndReq (s : State) : Bool := s.status.rndwait

/-- Output `rnd_bound`, driven by RND_BOUND (10_state.md R42, R44). -/
def State.rndBoundOut (s : State) : Nat := s.rndBound.val

end Sys2Proof.Machine
end

