-- ==== Sys2Proof/Machine/Ops.lean ====
section
/-! DEFINITION. The named operations on the state: the accept, the two completions (60_exceptions.md R180: the NTE's
counterpart of both "instruction retired" and "trap taken"), the acknowledge, the draw request and its answer, reset. -/

namespace Sys2Proof.Machine

/-- Free working registers (10_state.md R41: unspecified outside a running command; 93 U15; log entry 4). -/
def freeWork (k : Nat) : Work :=
  { ph := if Config.freePhaseIsRound k then .round else .start
    pow := { v := Config.freeNat k 0, p := Config.freeNat k 1, x := Config.freeNat k 2 }
    prime :=
      { n := Config.freeNat k 3, k := Config.freeNat k 4, s := Config.freeNat k 5, r := Config.freeNat k 6,
        i := Config.freeNat k 7, wdraw := Config.freeNat k 8, y := Config.freeNat k 9, j := Config.freeNat k 10,
        a := Config.freeNat k 11 }
    gcd := { a := Config.freeNat k 12, b := Config.freeNat k 13 }
    inv :=
      { r := Config.freeNat k 14, r' := Config.freeNat k 15, t := Config.freeInt k 0, t' := Config.freeInt k 1,
        q := Config.freeNat k 16 } }

/-- `accept(d)` (30_encoding.md R95). -/
def accept (d : Word) (s : State) : State :=
  { s with cmd := d, status := s.status.accepted, seq := .run, work := { s.work with ph := .start } }

/-- Normal completion `complete(v)` (60_exceptions.md R183): R holds v zero-extended to W bits, the flags say what the
command says, the engine is idle. The working registers are unspecified from here on (10_state.md R41). -/
def complete (v : Nat) (prime noinv : Bool) (s : State) : State :=
  { s with
    r := Operand.ofNat s.nw v
    status := s.status.completed prime noinv
    seq := .idle
    work := freeWork s.fresh
    fresh := s.fresh + 1 }

/-- The errors of 60_exceptions.md R181. -/
inductive ErrorCause where
  | illcmd
  | domain
  | rng
  deriving DecidableEq, Repr

/-- ERRCODE of an error (60_exceptions.md R181). -/
def errorCode : ErrorCause → BitVec 4
  | .illcmd => 1#4
  | .domain => 2#4
  | .rng => 3#4

/-- Error completion `raise Err(code)` (60_exceptions.md R184), the one way a command takes an exception: R is 0, ERRCODE
holds the code, nothing else is saved, control goes nowhere and the engine is idle. -/
def raiseErr (c : ErrorCause) (s : State) : State :=
  { s with
    r := Operand.ofNat s.nw 0
    status := s.status.failed (errorCode c)
    seq := .idle
    work := freeWork s.fresh
    fresh := s.fresh + 1 }

/-- There is no return-from-trap command: the host acknowledges a completion, normal or with an error, by writing 1 to
STATUS bit 1, which clears DONE and nothing else (60_exceptions.md R189, `ACK` of 30_encoding.md R101). -/
def acknowledge (s : State) : State :=
  { s with status := s.status.writeOneToClear 0x00000002#32 }

/-- A host write is dropped because BUSY is 1 (10_state.md R37, 20_memory.md R68, R71). -/
def dropWrite (s : State) : State := { s with status := s.status.setHaz }

/-- The working registers while a draw is pending: n, k, s, r and i survive a WAIT, the others live inside one round
(10_state.md R41), so they are free. -/
def waitingWork (g : PrimeRegs) (k : Nat) : Work :=
  { freeWork k with
    ph := .round
    prime := { (freeWork k).prime with n := g.n, k := g.k, s := g.s, r := g.r, i := g.i } }

/-- The draw request of 41_isprime.md R134: RND_BOUND is n - 3, `ph` is ROUND, SEQ is WAIT and so STATUS.RNDWAIT is 1. -/
def requestDraw (g : PrimeRegs) (s : State) : State :=
  { s with
    rndBound := Operand.ofNat s.nw (g.n - 3)
    status := s.status.withRndwait true
    seq := .wait
    work := waitingWork g s.fresh
    fresh := s.fresh + 1 }

/-- An answer below the bound (41_isprime.md R141): it is kept in `wdraw` and the engine runs again. -/
def takeAnswer (w : Nat) (s : State) : State :=
  { s with
    status := s.status.withRndwait false
    seq := .run
    work := { s.work with prime := { s.work.prime with wdraw := w } } }

/-- What `rnd_val` carries: W lines, so the low W bits of the number the environment gives (10_state.md R44, log entry 6). -/
def rndVal (s : State) (w : Nat) : Nat := w % 2 ^ s.width

/-- The `Respond` step (41_isprime.md R141, R142). When SEQ is not WAIT, and while `rst` is asserted (70_reset_and_hazards.md
R210), an `rnd_ack` is ignored. -/
def respond (w : Nat) (s : State) : State :=
  if s.rst = false ∧ s.seq = .wait then
    if s.rndBound.val ≤ rndVal s w then raiseErr .rng s else takeAnswer (rndVal s w) s
  else s

/-- Asserting `rst` (70_reset_and_hazards.md R210): every piece of state at the value of 10_state.md R50, at once and whatever
the NTE was doing. CONFIG keeps W; the working registers are unspecified (log entry 5); the environment's own record
(schedule, last bus answer) is not state of the NTE. -/
def assertReset (s : State) : State :=
  { State.resetOf s.nw with
    work := freeWork s.fresh
    rst := true
    answer := s.answer
    schedule := s.schedule
    fresh := s.fresh + 1 }

/-- Releasing `rst` (70_reset_and_hazards.md R210): the NTE is idle, as reset left it. -/
def releaseReset (s : State) : State := { s with rst := false }

/-- The environment drives `rst` (00_scope.md R11 (4)). -/
def driveReset (asserted : Bool) (s : State) : State :=
  if asserted then assertReset s else releaseReset s

end Sys2Proof.Machine
end

