-- ==== Sys2Proof/Machine/Bus.lean ====
section
/-! DEFINITION. The host register bus (20_memory.md R60 to R73) and the expansions of the host's pseudo-statements
(30_encoding.md R101). -/

namespace Sys2Proof.Machine

/-- The current value of a register word (20_memory.md R66). -/
def readReg (s : State) : RegWord → Word
  | .cmd => s.cmd
  | .status => s.status.word
  | .ctrl => s.ctrl.word
  | .iters => s.iters
  | .config => s.configWord
  | .bank x i => (s.bank x).word i
  | .result i => s.r.word i

/-- A write to CMD (20_memory.md R68). -/
def writeCmd (d : Word) (s : State) : State := if s.status.busy then dropWrite s else accept d s

/-- A write to STATUS (20_memory.md R69). -/
def writeStatus (d : Word) (s : State) : State := { s with status := s.status.writeOneToClear d }

/-- A write to CTRL (20_memory.md R70). -/
def writeCtrl (d : Word) (s : State) : State := { s with ctrl := Ctrl.ofWord d }

/-- A write to ITERS (20_memory.md R71). -/
def writeIters (d : Word) (s : State) : State := if s.status.busy then dropWrite s else { s with iters := d }

/-- A write to word i of an operand bank (20_memory.md R71). -/
def writeBank (x : Bank) (i : Nat) (d : Word) (s : State) : State :=
  if s.status.busy then dropWrite s else s.setBank x ((s.bank x).setWord i d)

/-- A write of d to a register word, dispatched by the register (20_memory.md R67); CONFIG and R ignore it (R72). -/
def writeReg (x : RegWord) (d : Word) (s : State) : State :=
  match x with
  | .cmd => writeCmd d s
  | .status => writeStatus d s
  | .ctrl => writeCtrl d s
  | .iters => writeIters d s
  | .config => s
  | .bank b i => writeBank b i d s
  | .result _ => s

/-- The bus answers the host (10_state.md R44). -/
def answerHost (r : BusAnswer) (s : State) : State := { s with answer := some r }

/-- A read or a write of an implemented, aligned word (20_memory.md R66, R67). A read changes no register (R73). -/
def accessReg (x : RegWord) (op : BusOp) (s : State) : State :=
  match op with
  | .read => answerHost (.okData (readReg s x)) s
  | .write d => answerHost .ok (writeReg x d s)

/-- One host access (20_memory.md R66, R67). The answer is `error` and no register changes where the access has the wrong
size (R64), is misaligned (R65) or names an unimplemented offset (R62), and while `rst` is asserted
(70_reset_and_hazards.md R210). -/
def busAccess (acc : BusAccess) (s : State) : State :=
  if s.rst then answerHost .error s
  else
    match accessTarget s.nw acc with
    | none => answerHost .error s
    | some x => accessReg x acc.op s

/-- Host accesses in the order the host issues them, one at a time (20_memory.md R75). -/
def busAccesses : List BusAccess → State → State
  | [], s => s
  | acc :: rest, s => busAccesses rest (busAccess acc s)

/-- The write of word i of a value in the expansion of `LOAD X, value` (30_encoding.md R101). -/
def loadWord (x : Bank) (value i : Nat) : BusAccess :=
  busWrite (BitVec.ofNat 13 (bankBase x + 4 * i)) (BitVec.ofNat 32 (value / 2 ^ (32 * i)))

/-- The bus accesses a host statement stands for (30_encoding.md R100, R101) on a machine of NW words a bank. -/
def expandStmt (nw : Nat) : HostStmt → List BusAccess
  | .wr addr value => [busWrite addr value]
  | .rd addr => [busRead addr]
  | .load x value => (List.range nw).map (loadWord x value)
  | .setIters k => [busWrite 0x000C#13 k]
  | .command i => [busWrite 0x0000#13 (encode i)]
  | .wait readsBefore => List.replicate (readsBefore + 1) (busRead 0x0004#13)
  | .result => (List.range nw).map fun i => busRead (BitVec.ofNat 13 (resultBase + 4 * i))
  | .ack => [busWrite 0x0004#13 0x00000002#32]
  | .clrHaz => [busWrite 0x0004#13 0x00000020#32]

end Sys2Proof.Machine
end

