-- ==== Sys2Proof/Machine/Euclid.lean ====
section
/-! DEFINITION. Unit 3: the extended-Euclidean engine (42_gcd_modinv.md): GCD, MODINV. -/

namespace Sys2Proof.Machine

/-- One pass of `gcd` (42_gcd_modinv.md R160): (a, b) becomes (b, a mod b). -/
def gcdPass (g : GcdRegs) : GcdRegs := { a := g.b, b := g.a % g.b }

/-- The loop of `gcd` (R160). b strictly decreases, so it makes at most b passes. -/
def gcdRun (a b : Nat) : GcdRegs :=
  whileLoop (fun g : GcdRegs => decide (g.b ≠ 0)) gcdPass b { a := a, b := b }

/-- `gcd(a, b)` (R160). -/
def gcdLoop (a b : Nat) : Nat := (gcdRun a b).a

/-- GCD (42_gcd_modinv.md R161): no error, every pair of operands has a result. -/
def execGcd (s : State) : Host.Outcome State Fault Refusal :=
  .next (complete (gcdLoop s.a.val s.b.val) false false s)

/-- One pass of `mod_inverse` (42_gcd_modinv.md R163): both pairs updated from the old pairs. r - q * r' is never negative. -/
def invPass (g : InvRegs) : InvRegs :=
  { r := g.r'
    r' := g.r - g.r / g.r' * g.r'
    t := g.t'
    t' := g.t - (g.r / g.r' : Nat) * g.t'
    q := g.r / g.r' }

/-- The loop of `mod_inverse` (R163), from (r, r') = (n, a) and (t, t') = (0, 1). r' strictly decreases, so it makes at most
a passes. -/
def invRun (a n : Nat) : InvRegs :=
  whileLoop (fun g : InvRegs => decide (g.r' ≠ 0)) invPass a { r := n, r' := a, t := 0, t' := 1, q := 0 }

/-- `mod_inverse(a, n)` after its loop (R163): the sentinel 0 with noinv where the final r is above 1, otherwise t, plus n
once where t is negative. -/
def invResult (n : Nat) (g : InvRegs) : Nat × Bool :=
  if g.r > 1 then (0, true)
  else if g.t < 0 then ((g.t + n).toNat, false)
  else (g.t.toNat, false)

/-- `mod_inverse(a, n)` (R163): the value and the flag noinv. -/
def modInverse (a n : Nat) : Nat × Bool := invResult n (invRun a n)

/-- MODINV (42_gcd_modinv.md R165, R167). -/
def execModinv (s : State) : Host.Outcome State Fault Refusal :=
  if s.m.val < 2 then .next (raiseErr .domain s)
  else .next (complete (modInverse s.a.val s.m.val).1 false (modInverse s.a.val s.m.val).2 s)

end Sys2Proof.Machine
end

