-- ==== Sys2Proof/Machine/Multiplier.lean ====
section
/-! DEFINITION. Unit 1: the modular multiplier and the modular-exponentiation engine (40_mulmod_powmod.md): MULMOD, POWMOD. -/

namespace Sys2Proof.Machine

/-- MULMOD (40_mulmod_powmod.md R112). -/
def execMulmod (s : State) : Host.Outcome State Fault Refusal :=
  if s.m.val = 0 then .next (raiseErr .domain s)
  else .next (complete (mulMod s.a.val s.b.val s.m.val) false false s)

/-- One pass of the loop of `pow_mod` (40_mulmod_powmod.md R113): the conditional multiply into v with the old p, then the
squaring of p, then the halving. -/
def powPass (modulus : Nat) (g : PowRegs) : PowRegs :=
  { v := if g.x % 2 = 1 then mulMod g.v g.p modulus else g.v
    p := mulMod g.p g.p modulus
    x := g.x / 2 }

/-- The loop of `pow_mod` (R113), `bitlen(exponent)` passes (R116): v starts at the integer 1, p at the unreduced base. -/
def powRun (base exponent modulus : Nat) : PowRegs :=
  whileLoop (fun g : PowRegs => decide (0 < g.x)) (powPass modulus) (bitLen exponent)
    { v := 1, p := base, x := exponent }

/-- `pow_mod(base, exponent, modulus)` (R113). -/
def powMod (base exponent modulus : Nat) : Nat := (powRun base exponent modulus).v

/-- POWMOD (40_mulmod_powmod.md R114). -/
def execPowmod (s : State) : Host.Outcome State Fault Refusal :=
  if s.m.val = 0 then .next (raiseErr .domain s)
  else .next (complete (powMod s.a.val s.e.val s.m.val) false false s)

end Sys2Proof.Machine
end

