-- ==== Sys2Proof/Machine/MillerRabin.lean ====
section
/-! DEFINITION. Unit 2: the Miller-Rabin witness-loop unit (41_isprime.md): ISPRIME on its working registers, in segments
separated by draws, and the same test as one function of the draw answers (R135, R136). -/

namespace Sys2Proof.Machine

/-- One pass of the decomposition loop (41_isprime.md R132): r is even and is halved. -/
def decomposePass (g : PrimeRegs) : PrimeRegs := { g with r := g.r / 2, s := g.s + 1 }

/-- The decomposition n - 1 = 2^s * r with r odd (R132), from s = 0 and r = n - 1; the round to come is round 1. -/
def decompose (g : PrimeRegs) : PrimeRegs :=
  whileLoop (fun g : PrimeRegs => decide (g.r % 2 = 0)) decomposePass (bitLen (g.n - 1))
    { g with s := 0, r := g.n - 1, i := 1 }

/-- A round begins with the draw answer in `wdraw` (41_isprime.md R133): a is the witness, y its power, j counts squarings. -/
def roundEnter (g : PrimeRegs) : PrimeRegs :=
  { g with a := g.wdraw + 2, y := powMod (g.wdraw + 2) g.r g.n, j := 1 }

/-- The squaring loop of a round (41_isprime.md R133), `while j <= s - 1 and y != n - 1`, at most `fuel` passes: none where y
becomes 1, which declares n composite, otherwise the registers after the loop. -/
def squaringLoop : Nat → PrimeRegs → Option PrimeRegs
  | 0, g => some g
  | fuel + 1, g =>
    if g.j ≤ g.s - 1 ∧ g.y ≠ g.n - 1 then
      if mulMod g.y g.y g.n = 1 then none
      else squaringLoop fuel { g with y := mulMod g.y g.y g.n, j := g.j + 1 }
    else some g

/-- What the squaring loop says of n (41_isprime.md R133): the round passed where y is n - 1 after the loop; y became 1, or
the loop was exhausted, where n is declared composite. -/
def squaringsPass : Option PrimeRegs → Bool
  | none => false
  | some g => g.y == g.n - 1

/-- One round on the working registers (41_isprime.md R133): true where the round passed, false where it declared n
composite. The loop squares at most s - 1 times. -/
def roundPasses (g : PrimeRegs) : Bool :=
  if (roundEnter g).y ≠ 1 ∧ (roundEnter g).y ≠ g.n - 1 then squaringsPass (squaringLoop (g.s - 1) (roundEnter g))
  else true

/-- How a segment of ISPRIME ends (70_reset_and_hazards.md R226): in the completion with a result, or in a draw request. -/
inductive Segment where
  | finish (result : Bool)
  | draw (g : PrimeRegs)
  deriving DecidableEq, Repr

/-- `ISPRIME_next` (41_isprime.md R134): finish after k rounds, otherwise ask for the next draw. -/
def isprimeNext (g : PrimeRegs) : Segment := if g.i > g.k then .finish true else .draw g

/-- `ISPRIME_start` with n and k set: the edge policy in its order, then the decomposition (41_isprime.md R131,
R132, R134). -/
def isprimeStart (g : PrimeRegs) : Segment :=
  if g.n < 2 then .finish false
  else if g.n = 2 ∨ g.n = 3 then .finish true
  else if g.n % 2 = 0 then .finish false
  else isprimeNext (decompose g)

/-- `ISPRIME_round(wdraw)` (41_isprime.md R133): composite, or round i + 1 (R134). -/
def isprimeRound (g : PrimeRegs) : Segment :=
  if roundPasses g then isprimeNext { g with i := g.i + 1 } else .finish false

/-- The end of a segment on the state: a normal completion with R = 1 or 0 and STATUS.PRIME = R[0] (41_isprime.md R130,
60_exceptions.md R183), or the draw request (R134). -/
def endSegment (x : Segment) (s : State) : State :=
  match x with
  | .finish result => complete result.toNat result false s
  | .draw g => requestDraw g s

/-- The copies of M and ITERS that `ISPRIME_start` makes (41_isprime.md R131). -/
def isprimeInit (s : State) : PrimeRegs := { s.work.prime with n := s.m.val, k := s.iters.toNat }

/-- ISPRIME (41_isprime.md R130): the first segment in phase START, a round in phase ROUND (70_reset_and_hazards.md R226). -/
def execIsprime (s : State) : Host.Outcome State Fault Refusal :=
  match s.work.ph with
  | .start => .next (endSegment (isprimeStart (isprimeInit s)) s)
  | .round => .next (endSegment (isprimeRound s.work.prime) s)

/-- How many times 2 divides x, for at most `fuel` halvings (the loop of 41_isprime.md R132 as one number). -/
def twosIn : Nat → Nat → Nat
  | 0, _ => 0
  | fuel + 1, x => if x % 2 = 0 then twosIn fuel (x / 2) + 1 else 0

/-- s of n - 1 = 2^s * r (41_isprime.md R132, R135). -/
def millerS (n : Nat) : Nat := twosIn (bitLen (n - 1)) (n - 1)

/-- r of n - 1 = 2^s * r (41_isprime.md R132, R135). -/
def millerR (n : Nat) : Nat := (n - 1) / 2 ^ millerS n

/-- The squarings of `is_prime` (41_isprime.md R135), `left` of them still allowed: true where y reaches n - 1, false where y
becomes 1 before that or the squarings are used up. -/
def squaringsReach (n : Nat) : Nat → Nat → Bool
  | 0, y => y == n - 1
  | left + 1, y =>
    if y = n - 1 then true
    else if y * y % n = 1 then false
    else squaringsReach n left (y * y % n)

/-- One witness a of `is_prime` (41_isprime.md R135): true where it does not declare n composite. -/
def witnessPasses (n a : Nat) : Bool :=
  if powMod a (millerR n) n = 1 ∨ powMod a (millerR n) n = n - 1 then true
  else squaringsReach n (millerS n - 1) (powMod a (millerR n) n)

/-- The rounds of `is_prime` (41_isprime.md R135): k rounds to go, with the draw answers still to come. -/
def witnessesPass (n : Nat) : Nat → List Nat → Bool
  | 0, _ => true
  | k + 1, draws => if witnessPasses n (draws.headD 0 + 2) then witnessesPass n k draws.tail else false

/-- `is_prime(n, k, D)` (41_isprime.md R135), for a list of at least as many answers as draws are made. -/
def isPrime (n k : Nat) (draws : List Nat) : Bool :=
  if n < 2 then false
  else if n = 2 ∨ n = 3 then true
  else if n % 2 = 0 then false
  else witnessesPass n k draws

/-- How many rounds are started (41_isprime.md R136): all k, or as many as it takes to declare n composite. -/
def roundsStarted (n : Nat) : Nat → List Nat → Nat
  | 0, _ => 0
  | k + 1, draws => if witnessPasses n (draws.headD 0 + 2) then roundsStarted n k draws.tail + 1 else 1

/-- How many draws ISPRIME makes (41_isprime.md R136): none when n < 5 or n is even, otherwise one per round started. -/
def drawCount (n k : Nat) (draws : List Nat) : Nat :=
  if n < 5 ∨ n % 2 = 0 then 0 else roundsStarted n k draws

end Sys2Proof.Machine
end

