-- ==== Sys2Proof/Machine/Advance.lean ====
section
/-! DEFINITION. The engine's `Advance` step (70_reset_and_hazards.md R226) and the step of whichever agent moves next
(00_scope.md R11, R12). -/

namespace Sys2Proof.Machine

/-- The first `Advance` step after an accept: decode CMD, then run the command or raise ILLCMD (30_encoding.md R96,
60_exceptions.md R182). -/
def advanceStart (s : State) : Host.Outcome State Fault Refusal :=
  match decode s.cmd with
  | .command i => exec i s
  | .illegal _ => .next (raiseErr .illcmd s)

/-- The `Advance` step (R226): in phase START decode and run, in phase ROUND run `ISPRIME_round(wdraw)`. -/
def advance (s : State) : Host.Outcome State Fault Refusal :=
  match s.work.ph with
  | .start => advanceStart s
  | .round => exec .isprime s

/-- The engine's turn: `Advance` is enabled exactly when SEQ = RUN (R226); otherwise the engine has no step and the state
stands still. -/
def engineTurn (s : State) : Host.Outcome State Fault Refusal :=
  match s.seq with
  | .run => advance s
  | .idle => .next s
  | .wait => .next s

/-- The step of one agent (00_scope.md R11). -/
def perform (ev : Event) (s : State) : Host.Outcome State Fault Refusal :=
  match ev with
  | .bus acc => .next (busAccess acc s)
  | .advance => engineTurn s
  | .respond w => .next (respond w s)
  | .rst asserted => .next (driveReset asserted s)

/-- `s` with the accept of the command word `d` done and the engine's `Advance` step next (30_encoding.md R95). -/
def startCommand (d : Word) (s : State) : State :=
  { accept d { s with rst := false } with schedule := .advance :: s.schedule }

end Sys2Proof.Machine
end

