-- ==== Sys2Proof/Machine/Step.lean ====
section
/-! DEFINITION. One step of the machine: the next agent of the schedule takes its step (00_scope.md R11, R12). -/

namespace Sys2Proof.Machine

/-- One step. The schedule says which agent moves next (R12: the interleaving is free, log entry 2). Where the schedule is
empty, host, random source and reset are quiet and the engine takes its turn (70_reset_and_hazards.md R227: the engine is
weakly fair); with no command running, or in WAIT, the state then stands still (R228). -/
def step (s : State) : Host.Outcome State Fault Refusal :=
  match s.schedule with
  | [] => engineTurn s
  | ev :: rest => perform ev { s with schedule := rest }

/-- `s` with the command word of a table row where the engine decodes its next command: the accept of that word done (CMD, the
flags, BUSY, SEQ and `ph` as 30_encoding.md R95 writes them) and the engine's step next (log entry 3). -/
def State.withFetchWord (s : State) (nbits w : Nat) : State := startCommand (tableWord nbits w) s

end Sys2Proof.Machine
end

