-- ==== Sys2Proof/Safety.lean ====
section
/-! DEFINITION. The terms claims are made in: the invariants of the machine, what a completion and a draw request leave, what
the spec calls the end of a run and a hazard. -/

namespace Sys2Proof.Machine

/-- The width is legal (00_scope.md R5) and every W-bit register has its NW words (R7, 10_state.md R20). -/
abbrev State.WidthOk (s : State) : Prop :=
  1 ≤ s.nw ∧ s.nw ≤ 256 ∧ s.a.length = s.nw ∧ s.b.length = s.nw ∧ s.e.length = s.nw ∧ s.m.length = s.nw
    ∧ s.r.length = s.nw ∧ s.rndBound.length = s.nw

/-- BUSY = 1 exactly when SEQ is RUN or WAIT, RNDWAIT = 1 exactly when SEQ = WAIT (10_state.md R33, R38). -/
abbrev State.SeqOk (s : State) : Prop :=
  (s.status.busy = true ↔ s.seq = .run ∨ s.seq = .wait) ∧ (s.status.rndwait = true ↔ s.seq = .wait)

/-- ERR = 1 exactly when ERRCODE is not 0, and ERRCODE is at most 3 (10_state.md R34, 60_exceptions.md R181, 93 U13). -/
abbrev State.ErrOk (s : State) : Prop :=
  (s.status.err = true ↔ s.status.errcode ≠ 0#4) ∧ s.status.errcode.toNat ≤ 3

/-- What the outcome flags say. While a command runs DONE, ERR, PRIME and NOINV are 0 (30_encoding.md R95). After an error R
is 0 and PRIME and NOINV are 0 (60_exceptions.md R184). PRIME = 1 only after ISPRIME with result 1, NOINV = 1 only after
MODINV with the sentinel 0, and after ISPRIME R is 0 or 1 and PRIME says which (10_state.md R35, R36). -/
abbrev State.FlagsOk (s : State) : Prop :=
  (s.status.busy = true →
      s.status.done = false ∧ s.status.err = false ∧ s.status.prime = false ∧ s.status.noinv = false)
    ∧ (s.status.err = true → s.r.val = 0 ∧ s.status.prime = false ∧ s.status.noinv = false)
    ∧ (s.status.prime = true → s.cmd = encode .isprime ∧ s.r.val = 1)
    ∧ (s.status.noinv = true → s.cmd = encode .modinv ∧ s.r.val = 0)
    ∧ (s.status.busy = false → s.cmd = encode .isprime →
        s.r.val ≤ 1 ∧ (s.status.prime = true ↔ s.r.val = 1))

/-- The numbers a pending round works with (41_isprime.md R132, R134): n is M, odd and at least 5, k is ITERS, n - 1 = 2^s * r
with r odd and s at least 1, and the round's number i is between 1 and k. -/
abbrev State.RoundOk (s : State) : Prop :=
  s.cmd = encode .isprime ∧ s.work.ph = .round ∧ s.work.prime.n = s.m.val ∧ s.work.prime.k = s.iters.toNat
    ∧ 5 ≤ s.work.prime.n ∧ s.work.prime.n % 2 = 1 ∧ s.work.prime.n - 1 = 2 ^ s.work.prime.s * s.work.prime.r
    ∧ s.work.prime.r % 2 = 1 ∧ 1 ≤ s.work.prime.s ∧ 1 ≤ s.work.prime.i ∧ s.work.prime.i ≤ s.work.prime.k

/-- While a draw is pending, and while a round is due, the round's numbers are right; the bound is n - 3 while a draw is
pending (41_isprime.md R134) and the answer kept is below n - 3 while a round is due (R141). -/
abbrev State.WitnessOk (s : State) : Prop :=
  (s.seq = .wait → s.RoundOk ∧ s.rndBound.val = s.work.prime.n - 3)
    ∧ (s.seq = .run → s.work.ph = .round → s.RoundOk ∧ s.work.prime.wdraw < s.work.prime.n - 3)

/-- Every host-visible register, SEQ and RND_BOUND at the values of 10_state.md R50. -/
abbrev State.AtReset (s : State) : Prop :=
  s.a = zeroOperand s.nw ∧ s.b = zeroOperand s.nw ∧ s.e = zeroOperand s.nw ∧ s.m = zeroOperand s.nw
    ∧ s.r = zeroOperand s.nw ∧ s.cmd = 0#32 ∧ s.status = Status.reset ∧ s.ctrl = { ien := false } ∧ s.iters = 0#32
    ∧ s.seq = .idle ∧ s.rndBound = zeroOperand s.nw

/-- While `rst` is asserted the registers hold their reset values (70_reset_and_hazards.md R210). -/
abbrev State.ResetOk (s : State) : Prop := s.rst = true → s.AtReset

/-- The invariant of the machine. -/
abbrev State.Inv (s : State) : Prop :=
  s.WidthOk ∧ s.SeqOk ∧ s.ErrOk ∧ s.FlagsOk ∧ s.WitnessOk ∧ s.ResetOk

/-- `t` is `s` after the normal completion of a command with result `v` (60_exceptions.md R183): R, the flags and SEQ as the
rule says, everything else as in `s` but for the working registers and the counter of free values (10_state.md R41). -/
abbrev NormalCompletion (s t : State) (v : Nat) (prime noinv : Bool) : Prop :=
  t = { s with
        r := Operand.ofNat s.nw v
        status :=
          { busy := false, done := true, err := false, prime := prime, noinv := noinv, haz := s.status.haz,
            rndwait := false, errcode := 0#4 }
        seq := .idle
        work := t.work
        fresh := t.fresh }

/-- `t` is `s` after an error completion with `code` (60_exceptions.md R184): R is 0, the flags and SEQ as the rule says,
everything else as in `s` but for the working registers and the counter of free values. -/
abbrev ErrorCompletion (s t : State) (code : BitVec 4) : Prop :=
  t = { s with
        r := Operand.ofNat s.nw 0
        status :=
          { busy := false, done := true, err := true, prime := false, noinv := false, haz := s.status.haz,
            rndwait := false, errcode := code }
        seq := .idle
        work := t.work
        fresh := t.fresh }

/-- `t` is `s` after a draw request with bound `bound` (41_isprime.md R134): RND_BOUND, RNDWAIT, SEQ and `ph` as the rule says,
everything else as in `s` but for the other working registers and the counter of free values. -/
abbrev DrawRequested (s t : State) (bound : Nat) : Prop :=
  t = { s with
        rndBound := Operand.ofNat s.nw bound
        status := { s.status with rndwait := true }
        seq := .wait
        work := t.work
        fresh := t.fresh }
    ∧ t.work.ph = .round

/-- Two outcomes that agree on what the host and the random source can see of a command: R, STATUS, where the engine goes and
the bound of a draw. -/
abbrev SameOutcome (o o' : Host.Outcome State Fault Refusal) : Prop :=
  ∃ t t', o = .next t ∧ o' = .next t' ∧ t'.r = t.r ∧ t'.status = t.status ∧ t'.seq = t.seq ∧ t'.rndBound = t.rndBound

/-- A host access that software must not make (70_reset_and_hazards.md R220): a write to CMD, ITERS or a word of an operand bank
while BUSY = 1. -/
def State.hazardous (s : State) (acc : BusAccess) : Bool :=
  match acc.op, accessTarget s.nw acc with
  | .write _, some .cmd => s.status.busy
  | .write _, some .iters => s.status.busy
  | .write _, some (.bank _ _) => s.status.busy
  | _, _ => false

/-- The events of a run that are host accesses. -/
def Event.isBus : Event → Bool
  | .bus _ => true
  | _ => false

/-- A host program has ended when its last access has been performed and the NTE has BUSY = 0 (00_scope.md R13). -/
def State.runEnded (s : State) : Bool := s.schedule.all (fun ev => !Event.isBus ev) && !s.status.busy

/-- The schedule in which the engine starts a command and then each draw is answered and the engine advances (41_isprime.md
R130, R141). -/
def drawSchedule (draws : List Nat) : List Event :=
  .advance :: draws.flatMap fun w => [.respond w, .advance]

end Sys2Proof.Machine
end

