-- ==== Sys2Proof/Certificates/Slice0/Obligations.lean ====
section
/-! DEFINITION. The statements for the provers, one per definition, each about the machine of Sys2Proof/Machine and each
formalising rules of spec/ (named in its docstring and in OBLIGATIONS.json). A state `s` is any state whatever: any width, any
schedule of the agents, any contents; a premise such as `s.WidthOk` names the part of the invariant `s.Inv` it needs. -/

open Sys2Proof Sys2Proof.Machine

/-! ### Encoding -/

/-- 30_encoding.md R91, R92: the five words of the opcode map decode to their commands, and the illegal words the spec's test
vectors name are illegal. -/
def Obligations.OpcodeMapWordsDecode : Prop :=
  decode 0x00000001#32 = .command .mulmod ∧ decode 0x00000002#32 = .command .powmod
    ∧ decode 0x00000003#32 = .command .isprime ∧ decode 0x00000004#32 = .command .gcd
    ∧ decode 0x00000005#32 = .command .modinv
    ∧ decode 0x00000000#32 = .illegal .unknownOpcode ∧ decode 0x00000006#32 = .illegal .unknownOpcode
    ∧ decode 0x000000FF#32 = .illegal .unknownOpcode ∧ decode 0x00000102#32 = .illegal .zeroFieldNotZero
    ∧ decode 0x80000002#32 = .illegal .zeroFieldNotZero

/-- 30_encoding.md R91: the five command words, and each command is decoded from its own word and from no other of the 2^32
words. -/
def Obligations.DecodeAndEncodeAgree : Prop :=
  (encode .mulmod = 0x00000001#32 ∧ encode .powmod = 0x00000002#32 ∧ encode .isprime = 0x00000003#32
      ∧ encode .gcd = 0x00000004#32 ∧ encode .modinv = 0x00000005#32)
    ∧ ∀ (w : Word) (i : Instr), decode w = .command i ↔ w = encode i

/-- 30_encoding.md R92, R96: every other word is illegal, for one of two reasons, the ZERO field tested first. -/
def Obligations.EveryOtherWordIsIllegal : Prop :=
  ∀ w : Word,
    (decode w = .illegal .zeroFieldNotZero ↔ w.extractLsb' 8 24 ≠ 0#24)
      ∧ (decode w = .illegal .unknownOpcode ↔
          w.extractLsb' 8 24 = 0#24 ∧ (w.extractLsb' 0 8 = 0x00#8 ∨ 0x06#8 ≤ w.extractLsb' 0 8))

/-! ### The engine's step -/

/-- 70_reset_and_hazards.md R226, 30_encoding.md R96: in the first `Advance` step after an accept the engine runs the command
that CMD decodes to, and the step adds nothing but that the engine's turn is used up. With an empty schedule the engine takes
the same step (R227, weak fairness; that the empty schedule gives the engine its turn is the model's choice, log entry 2). -/
def Obligations.StepRunsTheDecodedCommand : Prop :=
  ∀ (s : State) (i : Instr), s.seq = .run → s.work.ph = .start → decode s.cmd = .command i →
    (∀ rest, s.schedule = .advance :: rest → step s = exec i { s with schedule := rest })
      ∧ (s.schedule = [] → step s = exec i s)

/-- 70_reset_and_hazards.md R226: `Advance` is enabled exactly when SEQ = RUN, and in phase ROUND it runs ISPRIME's round. An
`advance` entry of the schedule where the step is not enabled leaves the state as it is (the model's choice, log entry 2). -/
def Obligations.AdvanceIsEnabledExactlyInRun : Prop :=
  ∀ (s : State) (rest : List Event), s.schedule = .advance :: rest →
    (s.seq ≠ .run → step s = .next { s with schedule := rest })
      ∧ (s.seq = .run → s.work.ph = .round → step s = exec .isprime { s with schedule := rest })

/-- The model's host interface (log entry 3): with a table row's word placed, the very next step runs the row's command on the
state the accept of that word leaves (30_encoding.md R95). -/
def Obligations.PlacedWordRunsNext : Prop :=
  ∀ (s : State) (w : Nat) (i : Instr), w < 2 ^ 32 → decodeTableWord 32 w = some i →
    encode i = BitVec.ofNat 32 w
      ∧ step (s.withFetchWord 32 w) =
        exec i
          { s with
            rst := false
            cmd := BitVec.ofNat 32 w
            status :=
              { s.status with done := false, err := false, errcode := 0#4, prime := false, noinv := false, busy := true }
            seq := .run
            work := { s.work with ph := .start } }

/-- 60_exceptions.md R182: an illegal command word completes with ILLCMD in the first `Advance` step, whatever the operands; and
with HAZ = 0 the host then reads STATUS = 0x00000106. -/
def Obligations.IllegalWordCompletesWithIllcmd : Prop :=
  ∀ (s : State) (rest : List Event), s.schedule = .advance :: rest → s.seq = .run → s.work.ph = .start →
    (s.cmd.extractLsb' 8 24 ≠ 0#24 ∨ s.cmd.extractLsb' 0 8 = 0x00#8 ∨ 0x06#8 ≤ s.cmd.extractLsb' 0 8) →
    ∃ t, step s = .next t ∧ ErrorCompletion { s with schedule := rest } t 1#4
      ∧ t.r.val = 0 ∧ (s.status.haz = false → t.status.word = 0x00000106#32)

/-- The model's own statement: every step ends in a next state. That nothing stops the machine is DEDUCED (log entry 7) from
60_exceptions.md R180, 20_memory.md R81 and 70_reset_and_hazards.md R227, none of which says it; that an entry of the schedule
that is not enabled, and an empty schedule, also answer a next state is the model's choice (log entry 2). -/
def Obligations.StepNeverStops : Prop := ∀ s : State, ∃ t, step s = .next t

/-! ### The commands: results, flags, errors, and everything they leave unchanged -/

/-- 40_mulmod_powmod.md R112, R110, 60_exceptions.md R183: MULMOD with M > 0 completes with R = (A * B) mod M, nothing
truncated. -/
def Obligations.MulmodCompletesWithTheExactRemainder : Prop :=
  ∀ s : State, s.m.val ≠ 0 →
    ∃ t, exec .mulmod s = .next t ∧ NormalCompletion s t (s.a.val * s.b.val % s.m.val) false false
      ∧ (s.WidthOk → t.r.val = s.a.val * s.b.val % s.m.val)

/-- 40_mulmod_powmod.md R114, R115: POWMOD with M > 0 completes with R = 1 where E = 0 and R = A^E mod M otherwise. -/
def Obligations.PowmodCompletesWithTheClosedForm : Prop :=
  ∀ s : State, s.m.val ≠ 0 →
    ∃ t, exec .powmod s = .next t
      ∧ NormalCompletion s t (if s.e.val = 0 then 1 else s.a.val ^ s.e.val % s.m.val) false false
      ∧ (s.WidthOk → t.r.val = if s.e.val = 0 then 1 else s.a.val ^ s.e.val % s.m.val)

/-- 40_mulmod_powmod.md R115: the closed form of the square-and-multiply loop, for every base, exponent and modulus at least 1;
for a modulus above 1 the two cases merge. -/
def Obligations.SquareAndMultiplyHasTheClosedForm : Prop :=
  ∀ b x m : Nat, 1 ≤ m →
    (x = 0 → powMod b x m = 1) ∧ (0 < x → powMod b x m = b ^ x % m) ∧ (1 < m → powMod b x m = b ^ x % m)

/-- 42_gcd_modinv.md R161, R162: GCD completes on every pair of operands, with their greatest common divisor. -/
def Obligations.GcdCompletesWithTheGreatestCommonDivisor : Prop :=
  ∀ s : State,
    ∃ t, exec .gcd s = .next t ∧ NormalCompletion s t (Nat.gcd s.a.val s.b.val) false false
      ∧ (s.WidthOk → t.r.val = Nat.gcd s.a.val s.b.val)

/-- 42_gcd_modinv.md R163, R164, R165: MODINV with M >= 2 and A coprime to M completes with the inverse of A modulo M, which is
in [1, M). -/
def Obligations.ModinvOfCoprimeOperandsIsTheInverse : Prop :=
  ∀ s : State, 2 ≤ s.m.val → Nat.gcd s.a.val s.m.val = 1 →
    ∃ t v, exec .modinv s = .next t ∧ NormalCompletion s t v false false ∧ 0 < v ∧ v < s.m.val
      ∧ s.a.val * v % s.m.val = 1 ∧ (s.WidthOk → t.r.val = v)

/-- 42_gcd_modinv.md R166: after a MODINV with M >= 2, R = 0 exactly when NOINV = 1 exactly when gcd(A, M) > 1, and "no inverse"
is a normal completion. -/
def Obligations.ModinvSentinelAndNoinvAgree : Prop :=
  ∀ s : State, s.WidthOk → 2 ≤ s.m.val →
    ∃ t v, exec .modinv s = .next t ∧ NormalCompletion s t v false t.status.noinv
      ∧ (t.r.val = 0 ↔ t.status.noinv = true) ∧ (t.status.noinv = true ↔ 1 < Nat.gcd s.a.val s.m.val)

/-- After any number of passes that the loop of `mod_inverse` does make, r, r' and q are at most max(a, n) and |t| and |t'| at most
n. The bounds are those of 42_gcd_modinv.md R164, a sentence the spec marks as general knowledge (93 G2); the starting values
(n, a) and (0, 1) are those of R163, which it marks as general knowledge too (93 G1; log entry 11, DEDUCED). -/
def Obligations.InverseLoopStaysInItsBounds : Prop :=
  ∀ a n k : Nat, 1 ≤ n →
    (∀ j, j < k → (invPass^[j] { r := n, r' := a, t := 0, t' := 1, q := 0 }).r' ≠ 0) →
    (invPass^[k] { r := n, r' := a, t := 0, t' := 1, q := 0 }).r ≤ max a n
      ∧ (invPass^[k] { r := n, r' := a, t := 0, t' := 1, q := 0 }).r' ≤ max a n
      ∧ (invPass^[k] { r := n, r' := a, t := 0, t' := 1, q := 0 }).q ≤ max a n
      ∧ |(invPass^[k] { r := n, r' := a, t := 0, t' := 1, q := 0 }).t| ≤ n
      ∧ |(invPass^[k] { r := n, r' := a, t := 0, t' := 1, q := 0 }).t'| ≤ n

/-- 60_exceptions.md R185: DOMAIN is raised by MULMOD and POWMOD exactly when M = 0 and by MODINV exactly when M < 2, never by
ISPRIME or GCD; with HAZ = 0 the host then reads STATUS = 0x00000206. -/
def Obligations.DomainErrorsAreRaisedExactlyOnTheirModuli : Prop :=
  ∀ s : State,
    (s.m.val = 0 →
        (∃ t, exec .mulmod s = .next t ∧ ErrorCompletion s t 2#4)
          ∧ ∃ t, exec .powmod s = .next t ∧ ErrorCompletion s t 2#4
            ∧ (s.status.haz = false → t.status.word = 0x00000206#32) ∧ t.r.val = 0)
      ∧ (s.m.val < 2 → ∃ t, exec .modinv s = .next t ∧ ErrorCompletion s t 2#4)
      ∧ (s.m.val ≠ 0 → ∀ t, exec .mulmod s = .next t ∨ exec .powmod s = .next t → t.status.errcode = 0#4)
      ∧ (2 ≤ s.m.val → ∀ t, exec .modinv s = .next t → t.status.errcode = 0#4)
      ∧ (∀ t, exec .gcd s = .next t → t.status.errcode = 0#4)
      ∧ (∀ t, exec .isprime s = .next t →
          t.status.errcode = 0#4 ∨ (t.seq = .wait ∧ t.status.errcode = s.status.errcode))

/-- 41_isprime.md R131: the edge policy, in its order; these completions make no draw and do not depend on ITERS. -/
def Obligations.IsprimeEdgePolicy : Prop :=
  ∀ s : State, s.work.ph = .start →
    (s.m.val < 2 → ∃ t, exec .isprime s = .next t ∧ NormalCompletion s t 0 false false)
      ∧ (s.m.val = 2 ∨ s.m.val = 3 → ∃ t, exec .isprime s = .next t ∧ NormalCompletion s t 1 true false)
      ∧ (4 ≤ s.m.val → s.m.val % 2 = 0 → ∃ t, exec .isprime s = .next t ∧ NormalCompletion s t 0 false false)

/-- 41_isprime.md R145: with ITERS = 0 ISPRIME completes in its first segment with R = 1 and PRIME = 1 for every odd n >= 5; the
edge policy still applies (n < 2 and even n give 0, 2 and 3 give 1); and ITERS is 0 after reset. -/
def Obligations.IsprimeWithoutRoundsSaysPrime : Prop :=
  (∀ s : State, s.work.ph = .start → s.iters = 0#32 →
      (5 ≤ s.m.val → s.m.val % 2 = 1 →
          ∃ t, exec .isprime s = .next t ∧ NormalCompletion s t 1 true false ∧ (s.WidthOk → t.r.val = 1))
        ∧ (s.m.val < 2 ∨ (4 ≤ s.m.val ∧ s.m.val % 2 = 0) →
          ∃ t, exec .isprime s = .next t ∧ NormalCompletion s t 0 false false)
        ∧ (s.m.val = 2 ∨ s.m.val = 3 → ∃ t, exec .isprime s = .next t ∧ NormalCompletion s t 1 true false))
    ∧ ∀ nw, (State.resetOf nw).iters = 0#32

/-- 41_isprime.md R132, R134: for an odd n >= 5 and ITERS > 0 the first segment decomposes n - 1 = 2^s * r with r odd and s >= 1,
and asks for the draw of round 1 with bound n - 3. -/
def Obligations.IsprimeAsksForItsFirstDraw : Prop :=
  ∀ s : State, s.work.ph = .start → s.iters ≠ 0#32 → 5 ≤ s.m.val → s.m.val % 2 = 1 →
    ∃ t, exec .isprime s = .next t ∧ DrawRequested s t (s.m.val - 3)
      ∧ t.work.prime.n = s.m.val ∧ t.work.prime.k = s.iters.toNat ∧ t.work.prime.i = 1
      ∧ s.m.val - 1 = 2 ^ t.work.prime.s * t.work.prime.r ∧ t.work.prime.r % 2 = 1 ∧ 1 ≤ t.work.prime.s

/-- 41_isprime.md R133, R134: the round of a draw answer w declares n composite exactly where the witness w + 2 does in
`is_prime` (R135); a round that passes is followed by the next draw, or by R = 1 after the last one. -/
def Obligations.IsprimeRoundFollowsItsWitness : Prop :=
  ∀ s : State, s.RoundOk →
    (witnessPasses s.work.prime.n (s.work.prime.wdraw + 2) = false →
        ∃ t, exec .isprime s = .next t ∧ NormalCompletion s t 0 false false)
      ∧ (witnessPasses s.work.prime.n (s.work.prime.wdraw + 2) = true → s.work.prime.i = s.work.prime.k →
        ∃ t, exec .isprime s = .next t ∧ NormalCompletion s t 1 true false)
      ∧ (witnessPasses s.work.prime.n (s.work.prime.wdraw + 2) = true → s.work.prime.i < s.work.prime.k →
        ∃ t, exec .isprime s = .next t ∧ DrawRequested s t (s.work.prime.n - 3)
          ∧ t.work.prime.n = s.work.prime.n ∧ t.work.prime.k = s.work.prime.k ∧ t.work.prime.s = s.work.prime.s
          ∧ t.work.prime.r = s.work.prime.r ∧ t.work.prime.i = s.work.prime.i + 1)

/-- 41_isprime.md R135, R136: ISPRIME, run as `Advance` and `Respond` steps on any answers in range, completes after
`drawCount` draws (R136), at most ITERS of them, with the result of the one function `is_prime(n, k, D)` (R135). -/
def Obligations.IsprimeIsTheFunctionOfItsDraws : Prop :=
  ∀ (s : State) (draws : List Nat) (rest : List Event),
    s.WidthOk → s.rst = false → s.seq = .run → s.work.ph = .start → s.cmd = encode .isprime →
    s.iters.toNat ≤ draws.length → (5 ≤ s.m.val → s.m.val % 2 = 1 → ∀ w ∈ draws, w < s.m.val - 3) →
    s.schedule = drawSchedule (draws.take (drawCount s.m.val s.iters.toNat draws)) ++ rest →
    drawCount s.m.val s.iters.toNat draws ≤ s.iters.toNat
      ∧ ∃ t, Host.Core.run core (2 * drawCount s.m.val s.iters.toNat draws + 1) s = .next t
        ∧ NormalCompletion { s with schedule := rest, rndBound := t.rndBound } t
            (isPrime s.m.val s.iters.toNat draws).toNat (isPrime s.m.val s.iters.toNat draws) false

/-- 41_isprime.md R137 (its sentence marked as general knowledge, 93 G5): a prime is never declared composite, whatever the draws
in range and however many rounds. -/
def Obligations.PrimesAreNeverDeclaredComposite : Prop :=
  ∀ (p k : Nat) (draws : List Nat), p.Prime → (5 ≤ p → ∀ w ∈ draws, w < p - 3) → isPrime p k draws = true

/-- 70_reset_and_hazards.md R227, 60_exceptions.md R180: MULMOD, POWMOD, GCD and MODINV complete in the engine's first step after
the write of their word to CMD. -/
def Obligations.FourCommandsCompleteInOneAdvance : Prop :=
  ∀ (s : State) (i : Instr) (rest : List Event), i ≠ .isprime → s.rst = false → s.status.busy = false →
    s.schedule = .bus ⟨0x0000#13, 4, .write (encode i)⟩ :: .advance :: rest →
    ∃ t, Host.Core.run core 2 s = .next t ∧ t.seq = .idle ∧ t.status.busy = false ∧ t.status.done = true
      ∧ t.cmd = encode i ∧ t.schedule = rest

/-- 10_state.md R21, R22, 60_exceptions.md R183, R184, 41_isprime.md R134: what the engine's run of any command leaves unchanged.
Every register word the host can read but STATUS and R reads as before, HAZ stays, and a draw request leaves R and the other
flags too. -/
def Obligations.CommandsChangeOnlyResultFlagsAndHiddenState : Prop :=
  ∀ (i : Instr) (s t : State), exec i s = .next t →
    (∀ x : RegWord, x ≠ .status → (∀ j, x ≠ .result j) → readReg t x = readReg s x)
      ∧ t.a = s.a ∧ t.b = s.b ∧ t.e = s.e ∧ t.m = s.m ∧ t.cmd = s.cmd ∧ t.ctrl = s.ctrl ∧ t.iters = s.iters
      ∧ t.nw = s.nw ∧ t.status.haz = s.status.haz ∧ t.rst = s.rst ∧ t.answer = s.answer ∧ t.schedule = s.schedule
      ∧ (t.seq = .wait → i = .isprime ∧ t.r = s.r ∧ t.status = { s.status with rndwait := true })
      ∧ (t.seq ≠ .wait → t.rndBound = s.rndBound)

/-- 10_state.md R21: a bank or register a command does not read has no effect on its result, on its flags, on where the engine
goes or on the bound of a draw. -/
def Obligations.UnreadOperandsHaveNoEffect : Prop :=
  ∀ (s : State) (a b e m : Operand) (k : Word),
    SameOutcome (exec .mulmod s) (exec .mulmod { s with e := e, iters := k })
      ∧ SameOutcome (exec .powmod s) (exec .powmod { s with b := b, iters := k })
      ∧ SameOutcome (exec .isprime s) (exec .isprime { s with a := a, b := b, e := e })
      ∧ SameOutcome (exec .gcd s) (exec .gcd { s with e := e, m := m, iters := k })
      ∧ SameOutcome (exec .modinv s) (exec .modinv { s with b := b, e := e, iters := k })

/-- 60_exceptions.md R194: a host write dropped while BUSY = 1 does not disturb the running command, which ends as if the write had
not happened, but for HAZ. -/
def Obligations.DroppedWriteDoesNotDisturbTheCommand : Prop :=
  ∀ (i : Instr) (s t : State), exec i s = .next t →
    exec i { s with status := { s.status with haz := true } } = .next { t with status := { t.status with haz := true } }

/-! ### The random-draw channel -/

/-- 41_isprime.md R141, R142: an answer below RND_BOUND is kept and the engine runs again; any other ends the command with RNG; an
answer outside WAIT is ignored. -/
def Obligations.AnswerStep : Prop :=
  ∀ (s : State) (w : Nat) (rest : List Event), s.rst = false → w < 2 ^ (32 * s.nw) → s.schedule = .respond w :: rest →
    (s.seq ≠ .wait → step s = .next { s with schedule := rest })
      ∧ (s.seq = .wait → w < s.rndBound.val →
          step s = .next
            { s with
              schedule := rest
              status := { s.status with rndwait := false }
              seq := .run
              work := { s.work with prime := { s.work.prime with wdraw := w } } })
      ∧ (s.seq = .wait → s.rndBound.val ≤ w → ∃ t, step s = .next t ∧ ErrorCompletion { s with schedule := rest } t 3#4)

/-- 70_reset_and_hazards.md R228: only an answer of the random source or reset takes the engine out of WAIT; until then BUSY and
RNDWAIT stay 1 and CMD, ITERS and the operand banks keep their values. -/
def Obligations.OnlyAnswerOrResetLeavesWait : Prop :=
  ∀ s t : State, s.SeqOk → s.seq = .wait → (∀ w rest, s.schedule ≠ .respond w :: rest) →
    (∀ rest, s.schedule ≠ .rst true :: rest) → step s = .next t →
    t.seq = .wait ∧ t.status.busy = true ∧ t.status.rndwait = true ∧ t.cmd = s.cmd ∧ t.iters = s.iters
      ∧ t.a = s.a ∧ t.b = s.b ∧ t.e = s.e ∧ t.m = s.m ∧ t.r = s.r ∧ t.rndBound = s.rndBound ∧ t.work = s.work

/-! ### The host bus -/

/-- 20_memory.md R61: the address map, every aligned offset of the window: the five 32-bit registers, the implemented words of
the five banks, and nothing else. -/
def Obligations.AddressMap : Prop :=
  ∀ (nw off : Nat) (x : RegWord), 1 ≤ nw → nw ≤ 256 → off < 0x2000 → off % 4 = 0 →
    (regAt nw off = some x ↔
      (x = .cmd ∧ off = 0x0000) ∨ (x = .status ∧ off = 0x0004) ∨ (x = .ctrl ∧ off = 0x0008)
        ∨ (x = .iters ∧ off = 0x000C) ∨ (x = .config ∧ off = 0x0010)
        ∨ (∃ i, i < nw ∧ x = .bank .A i ∧ off = 0x0400 + 4 * i)
        ∨ (∃ i, i < nw ∧ x = .bank .B i ∧ off = 0x0800 + 4 * i)
        ∨ (∃ i, i < nw ∧ x = .bank .E i ∧ off = 0x0C00 + 4 * i)
        ∨ (∃ i, i < nw ∧ x = .bank .M i ∧ off = 0x1000 + 4 * i)
        ∨ (∃ i, i < nw ∧ x = .result i ∧ off = 0x1400 + 4 * i))

/-- 20_memory.md R62, R64, R65: an access of another size than 4 bytes, a misaligned access, and an access to an unimplemented
offset get the answer `error` and change no state of the NTE, HAZ included. -/
def Obligations.RefusedAccessesChangeNothing : Prop :=
  ∀ (s : State) (acc : BusAccess) (rest : List Event), s.schedule = .bus acc :: rest →
    (acc.size ≠ 4 ∨ acc.addr.toNat % 4 ≠ 0 ∨ regAt s.nw acc.addr.toNat = none) →
    step s = .next { s with schedule := rest, answer := some .error }

/-- 20_memory.md R66, R73: a read of an implemented, aligned word is answered with the word's current value, at any time, and
changes nothing. What the value is, register by register: 10_state.md R28 to R32 and 00_scope.md R7. -/
def Obligations.ReadsAnswerTheWordAndChangeNothing : Prop :=
  (∀ (s : State) (addr : BitVec 13) (x : RegWord) (rest : List Event), s.rst = false → addr.toNat % 4 = 0 →
      regAt s.nw addr.toNat = some x → s.schedule = .bus ⟨addr, 4, .read⟩ :: rest →
      step s = .next { s with schedule := rest, answer := some (.okData (readReg s x)) })
    ∧ ∀ s : State,
      readReg s .cmd = s.cmd ∧ readReg s .status = s.status.word ∧ readReg s .ctrl = s.ctrl.word
        ∧ readReg s .iters = s.iters ∧ readReg s .config = s.configWord
        ∧ (∀ i, readReg s (.bank .A i) = s.a.getD i 0#32) ∧ (∀ i, readReg s (.bank .B i) = s.b.getD i 0#32)
        ∧ (∀ i, readReg s (.bank .E i) = s.e.getD i 0#32) ∧ (∀ i, readReg s (.bank .M i) = s.m.getD i 0#32)
        ∧ (∀ i, readReg s (.result i) = s.r.getD i 0#32)

/-- 10_state.md R29, R30, R31: where the fields of STATUS, CTRL and CONFIG stand in the words the host reads, reserved bits
read as 0. -/
def Obligations.RegisterWordLayouts : Prop :=
  (∀ f : Status,
      f.word.getLsbD 0 = f.busy ∧ f.word.getLsbD 1 = f.done ∧ f.word.getLsbD 2 = f.err ∧ f.word.getLsbD 3 = f.prime
        ∧ f.word.getLsbD 4 = f.noinv ∧ f.word.getLsbD 5 = f.haz ∧ f.word.getLsbD 6 = f.rndwait
        ∧ f.word.getLsbD 7 = false ∧ f.word.extractLsb' 8 4 = f.errcode ∧ f.word.extractLsb' 12 20 = 0#20)
    ∧ (∀ c : Ctrl, c.word.getLsbD 0 = c.ien ∧ c.word.extractLsb' 1 31 = 0#31)
    ∧ ∀ s : State, s.nw ≤ 256 → s.configWord.toNat = 32 * s.nw

/-- 20_memory.md R68, 30_encoding.md R95: a write to CMD while BUSY = 0 is the accept, and changes nothing that R95 does not name;
while BUSY = 1 it sets HAZ and changes nothing else. After the accept `irq` is 0, and RNDWAIT was and is 0. -/
def Obligations.CommandWriteIsAcceptedOrDropped : Prop :=
  ∀ (s : State) (d : Word) (rest : List Event), s.rst = false → s.schedule = .bus ⟨0x0000#13, 4, .write d⟩ :: rest →
    (s.status.busy = false →
        ∃ t, step s = .next t
          ∧ t = { s with
              schedule := rest
              answer := some .ok
              cmd := d
              status :=
                { s.status with done := false, err := false, errcode := 0#4, prime := false, noinv := false, busy := true }
              seq := .run
              work := { s.work with ph := .start } }
          ∧ t.irq = false ∧ (s.SeqOk → s.status.rndwait = false ∧ t.status.rndwait = false))
      ∧ (s.status.busy = true →
        step s = .next { s with schedule := rest, answer := some .ok, status := { s.status with haz := true } })

/-- 20_memory.md R69: a write to STATUS clears DONE where d[1] = 1 and HAZ where d[5] = 1, and changes nothing else, BUSY or
not. -/
def Obligations.StatusWriteClearsDoneAndHazOnly : Prop :=
  ∀ (s : State) (d : Word) (rest : List Event), s.rst = false → s.schedule = .bus ⟨0x0004#13, 4, .write d⟩ :: rest →
    step s = .next
      { s with
        schedule := rest
        answer := some .ok
        status := { s.status with done := s.status.done && !d.getLsbD 1, haz := s.status.haz && !d.getLsbD 5 } }

/-- 20_memory.md R70: a write to CTRL sets IEN to d[0] and changes nothing else, BUSY or not. -/
def Obligations.CtrlWriteSetsIenOnly : Prop :=
  ∀ (s : State) (d : Word) (rest : List Event), s.rst = false → s.schedule = .bus ⟨0x0008#13, 4, .write d⟩ :: rest →
    step s = .next { s with schedule := rest, answer := some .ok, ctrl := { ien := d.getLsbD 0 } }

/-- 20_memory.md R71: a write to ITERS or to word i of an operand bank, while BUSY = 0, replaces that word and nothing else; while
BUSY = 1 it sets HAZ and changes nothing else. -/
def Obligations.ItersAndBankWrites : Prop :=
  (∀ (s : State) (d : Word) (rest : List Event), s.rst = false → s.schedule = .bus ⟨0x000C#13, 4, .write d⟩ :: rest →
      (s.status.busy = false → step s = .next { s with schedule := rest, answer := some .ok, iters := d })
        ∧ (s.status.busy = true →
          step s = .next { s with schedule := rest, answer := some .ok, status := { s.status with haz := true } }))
    ∧ ∀ (s : State) (addr : BitVec 13) (x : Bank) (i : Nat) (d : Word) (rest : List Event), s.WidthOk → s.rst = false →
      i < s.nw →
      addr.toNat = (match x with | .A => 0x0400 | .B => 0x0800 | .E => 0x0C00 | .M => 0x1000) + 4 * i →
      s.schedule = .bus ⟨addr, 4, .write d⟩ :: rest →
      (s.status.busy = false →
          ∃ t, step s = .next t
            ∧ t = { s with
                schedule := rest
                answer := some .ok
                a := if x = .A then s.a.set i d else s.a
                b := if x = .B then s.b.set i d else s.b
                e := if x = .E then s.e.set i d else s.e
                m := if x = .M then s.m.set i d else s.m }
            ∧ (t.bank x).getD i 0#32 = d ∧ ∀ j, j ≠ i → (t.bank x).getD j 0#32 = (s.bank x).getD j 0#32)
        ∧ (s.status.busy = true →
          step s = .next { s with schedule := rest, answer := some .ok, status := { s.status with haz := true } })

/-- 20_memory.md R72: a write to CONFIG or to a word of R is answered `ok` and changes nothing, BUSY or not. -/
def Obligations.ReadOnlyWritesAreIgnored : Prop :=
  ∀ (s : State) (addr : BitVec 13) (i : Nat) (d : Word) (rest : List Event), s.rst = false → s.nw ≤ 256 → i < s.nw →
    (addr = 0x0010#13 ∨ addr.toNat = 0x1400 + 4 * i) → s.schedule = .bus ⟨addr, 4, .write d⟩ :: rest →
    step s = .next { s with schedule := rest, answer := some .ok }

/-- 30_encoding.md R101, 20_memory.md R71, R75: the accesses of `LOAD X, value`, made in order while no command runs, leave the
value in the bank and change nothing else but the bus answer. -/
def Obligations.LoadStatementLoadsTheBank : Prop :=
  ∀ (s : State) (x : Bank) (value : Nat), s.WidthOk → s.rst = false → s.status.busy = false → value < 2 ^ (32 * s.nw) →
    ∃ t, busAccesses (expandStmt s.nw (.load x value)) s = t ∧ (t.bank x).val = value
      ∧ (∀ y, y ≠ x → t.bank y = s.bank y)
      ∧ t = { s with a := t.a, b := t.b, e := t.e, m := t.m, answer := some .ok }

/-- 30_encoding.md R101: the expansions of the host's pseudo-statements into bus accesses (`LOAD` and `RESULT` in ascending word
order). R101 does not fix how many reads of STATUS a `WAIT` makes; that the statement carries a count and expands to that many
reads and one more is the model's choice (log entry 10, DESIGN CHOICE). -/
def Obligations.PseudoStatementsExpand : Prop :=
  ∀ (nw : Nat) (x : Bank) (value reads : Nat) (k : Word) (i : Instr), nw ≤ 256 →
    expandStmt nw (.setIters k) = [⟨0x000C#13, 4, .write k⟩]
      ∧ expandStmt nw (.command i) = [⟨0x0000#13, 4, .write (encode i)⟩]
      ∧ expandStmt nw .ack = [⟨0x0004#13, 4, .write 0x00000002#32⟩]
      ∧ expandStmt nw .clrHaz = [⟨0x0004#13, 4, .write 0x00000020#32⟩]
      ∧ (expandStmt nw (.wait reads)).length = reads + 1
      ∧ (∀ acc ∈ expandStmt nw (.wait reads), acc = ⟨0x0004#13, 4, .read⟩)
      ∧ (expandStmt nw (.load x value)).length = nw ∧ (expandStmt nw .result).length = nw
      ∧ ∀ j, j < nw →
        (∃ addr, (expandStmt nw (.load x value))[j]? = some ⟨addr, 4, .write (BitVec.ofNat 32 (value / 2 ^ (32 * j)))⟩
            ∧ regAt nw addr.toNat = some (.bank x j))
          ∧ ∃ addr, (expandStmt nw .result)[j]? = some ⟨addr, 4, .read⟩ ∧ regAt nw addr.toNat = some (.result j)

/-! ### Reset -/

/-- 10_state.md R50: the values after reset, for every legal width: every operand bank, R and RND_BOUND 0, CMD, STATUS, CTRL and
ITERS 0, CONFIG = W, SEQ = IDLE, `irq` and `rnd_req` 0; and nothing runs: the engine's `Advance` step is not enabled and an
answer of the random source is ignored. -/
def Obligations.ResetValues : Prop :=
  ∀ nw, 1 ≤ nw → nw ≤ 256 →
    let s := State.resetOf nw
    s.a.val = 0 ∧ s.b.val = 0 ∧ s.e.val = 0 ∧ s.m.val = 0 ∧ s.r.val = 0 ∧ s.rndBound.val = 0
      ∧ readReg s .cmd = 0x00000000#32 ∧ readReg s .status = 0x00000000#32 ∧ readReg s .ctrl = 0x00000000#32
      ∧ readReg s .iters = 0x00000000#32 ∧ (readReg s .config).toNat = 32 * nw
      ∧ s.seq = .idle ∧ s.irq = false ∧ s.rndReq = false
      ∧ engineTurn s = .next s ∧ ∀ w, respond w s = s

/-- 70_reset_and_hazards.md R210, R212: asserting `rst` puts every register at its reset value whatever the NTE was doing; while it
is asserted every access is answered `error` and answers of the random source are ignored; releasing it changes nothing else and
leaves the NTE idle, `irq` and `rnd_req` 0 (`State.ResetOk`, kept by every step, says that the registers are at their reset values
while `rst` is asserted). -/
def Obligations.ResetAtAnyTime : Prop :=
  ∀ (s : State) (rest : List Event),
    (s.schedule = .rst true :: rest →
        ∃ t, step s = .next t
          ∧ t = { State.resetOf s.nw with
              rst := true, answer := s.answer, schedule := rest, work := t.work, fresh := t.fresh })
      ∧ (∀ acc, s.rst = true → s.schedule = .bus acc :: rest →
          step s = .next { s with schedule := rest, answer := some .error })
      ∧ (∀ w, s.rst = true → s.schedule = .respond w :: rest → step s = .next { s with schedule := rest })
      ∧ (s.schedule = .rst false :: rest →
          ∃ t, step s = .next t ∧ t = { s with schedule := rest, rst := false }
            ∧ (s.rst = true → s.ResetOk →
              t.seq = .idle ∧ t.status.busy = false ∧ t.irq = false ∧ t.rndReq = false ∧ t.AtReset))

/-! ### Rules about the whole machine -/

/-- 10_state.md R21, 20_memory.md R71: an operand bank changes only by a host write to it while BUSY = 0, or by reset. -/
def Obligations.OperandBanksChangeOnlyByHostWriteOrReset : Prop :=
  ∀ (s t : State) (x : Bank), step s = .next t → t.bank x ≠ s.bank x →
    (∃ acc d i rest, s.schedule = .bus acc :: rest ∧ acc.op = .write d ∧ accessTarget s.nw acc = some (.bank x i)
        ∧ s.status.busy = false ∧ s.rst = false)
      ∨ ∃ rest, s.schedule = .rst true :: rest

/-- 10_state.md R22, 20_memory.md R77: R changes only at the completion of a command, in the step that also sets DONE and clears
BUSY, or by reset. -/
def Obligations.ResultChangesOnlyAtCompletionOrReset : Prop :=
  ∀ s t : State, step s = .next t → t.r ≠ s.r →
    (s.seq ≠ .idle ∧ t.seq = .idle ∧ t.status.done = true ∧ t.status.busy = false)
      ∨ ∃ rest, s.schedule = .rst true :: rest

/-- 10_state.md R37: HAZ is set exactly when a host write to CMD, ITERS or a word of A, B, E or M is ignored because BUSY = 1, and
is cleared only by a host write of 1 to STATUS bit 5 and by reset. -/
def Obligations.HazRecordsDroppedWritesOnly : Prop :=
  ∀ s t : State, step s = .next t →
    (t.status.haz = true → s.status.haz = true ∨
        ∃ acc rest, s.schedule = .bus acc :: rest ∧ s.rst = false ∧ s.hazardous acc = true)
      ∧ (∀ acc rest, s.schedule = .bus acc :: rest → s.rst = false → s.hazardous acc = true → t.status.haz = true)
      ∧ (s.status.haz = true → t.status.haz = false →
          (∃ acc d rest, s.schedule = .bus acc :: rest ∧ acc.op = .write d ∧ accessTarget s.nw acc = some .status
              ∧ d.getLsbD 5 = true)
            ∨ ∃ rest, s.schedule = .rst true :: rest)

/-- 60_exceptions.md R191, 10_state.md R39: `irq` is CTRL.IEN and STATUS.DONE; it rises only by a completion, or by the host
setting IEN while DONE = 1. -/
def Obligations.InterruptRisesOnlyByCompletionOrEnable : Prop :=
  ∀ s t : State, step s = .next t →
    t.irq = (t.ctrl.ien && t.status.done)
      ∧ (s.irq = false → t.irq = true →
          (s.seq ≠ .idle ∧ t.seq = .idle ∧ t.status.done = true)
            ∨ (∃ acc d rest, s.schedule = .bus acc :: rest ∧ acc.op = .write d ∧ accessTarget s.nw acc = some .ctrl
                ∧ d.getLsbD 0 = true ∧ s.status.done = true))

/-- 10_state.md R40: the transitions of SEQ, each with what makes it. -/
def Obligations.SequencerTransitions : Prop :=
  ∀ s t : State, s.SeqOk → step s = .next t → t.seq ≠ s.seq →
    (s.seq = .idle ∧ t.seq = .run
        ∧ ∃ acc d rest, s.schedule = .bus acc :: rest ∧ acc.op = .write d ∧ accessTarget s.nw acc = some .cmd ∧ t.cmd = d)
      ∨ (s.seq = .run ∧ t.seq = .idle ∧ t.status.done = true)
      ∨ (s.seq = .run ∧ t.seq = .wait ∧ t.status.rndwait = true)
      ∨ (s.seq = .wait ∧ t.seq = .run ∧ (∃ w rest, s.schedule = .respond w :: rest)
          ∧ t.work.prime.wdraw < s.rndBound.val)
      ∨ (s.seq = .wait ∧ t.seq = .idle ∧ (∃ w rest, s.schedule = .respond w :: rest) ∧ t.status.errcode = 3#4
          ∧ t.status.done = true)
      ∨ (t.seq = .idle ∧ ∃ rest, s.schedule = .rst true :: rest)

/-- 10_state.md R30: CONFIG[15:0] is W, CONFIG[31:16] is 0, and no step changes CONFIG, a host write to it and reset included. -/
def Obligations.ConfigNeverChanges : Prop :=
  ∀ s t : State, step s = .next t →
    t.nw = s.nw ∧ readReg t .config = readReg s .config
      ∧ (s.WidthOk →
        ((readReg s .config).extractLsb' 0 16).toNat = 32 * s.nw ∧ (readReg s .config).extractLsb' 16 16 = 0#16
          ∧ 32 ≤ 32 * s.nw ∧ 32 * s.nw ≤ 8192)

/-- 10_state.md R33, R38: BUSY = 1 exactly when SEQ is RUN or WAIT, and RNDWAIT = 1 exactly when SEQ = WAIT: every step keeps it, and
reset has it. -/
def Obligations.BusyAndRndwaitFollowTheSequencer : Prop :=
  (∀ nw, (State.resetOf nw).SeqOk) ∧ ∀ s t : State, s.SeqOk → step s = .next t → t.SeqOk

/-- 10_state.md R34, 60_exceptions.md R181: ERR = 1 exactly when ERRCODE is not 0, and ERRCODE is at most 3: every step keeps it, and
reset has it. -/
def Obligations.ErrcodeStaysLegal : Prop :=
  (∀ nw, (State.resetOf nw).ErrOk) ∧ ∀ s t : State, s.ErrOk → step s = .next t → t.ErrOk

/-- The invariant holds after reset, for every legal width (10_state.md R50) and for `State.reset`, which is the reset state of the
width `Config.nw` (the model's choice of an instance, log entry 1). -/
def Obligations.ResetMeetsTheInvariant : Prop :=
  State.reset = State.resetOf Config.nw ∧ State.reset.Inv ∧ ∀ nw, 1 ≤ nw → nw ≤ 256 → (State.resetOf nw).Inv

/-- Every step of every agent keeps the invariant: widths (00_scope.md R5), BUSY and RNDWAIT with SEQ (10_state.md R33, R38), ERR with
ERRCODE (R34), what DONE, ERR, PRIME and NOINV say (R34, R35, R36), the numbers of a pending round (41_isprime.md R132, R134,
R141), and the reset values while `rst` is asserted (70_reset_and_hazards.md R210). -/
def Obligations.EveryStepKeepsTheInvariant : Prop :=
  ∀ s t : State, s.Inv → step s = .next t → t.Inv
end

