-- ==== Sys2Proof/Laws/Operands.lean ====
section
/-! SUPPORT. The laws of operands: the value of a register, its words, its width; and of the `while` loop. -/

namespace Sys2Proof

@[simp] theorem Operand.val_nil : Operand.val [] = 0 := rfl

@[simp] theorem Operand.val_cons (w : Word) (ws : Operand) :
    Operand.val (w :: ws) = w.toNat + 2 ^ 32 * Operand.val ws := rfl

/-- A register of NW words holds a number below 2^W (10_state.md R21). -/
theorem Operand.val_lt (x : Operand) : Operand.val x < 2 ^ (32 * x.length) := by
  induction x with
  | nil => simp
  | cons w ws ih =>
    have hw := w.isLt
    have hpow : 2 ^ (32 * (List.length (w :: ws))) = 2 ^ 32 * 2 ^ (32 * ws.length) := by
      rw [List.length_cons, Nat.mul_add, Nat.pow_add, Nat.mul_comm]
    rw [hpow, Operand.val_cons]
    have : 2 ^ 32 * (Operand.val ws + 1) ≤ 2 ^ 32 * 2 ^ (32 * ws.length) := Nat.mul_le_mul_left _ ih
    omega

@[simp] theorem Operand.length_ofNat (nw v : Nat) : (Operand.ofNat nw v).length = nw := by
  induction nw generalizing v with
  | zero => rfl
  | succ n ih => simp [Operand.ofNat, ih]

/-- A number written to a register of NW words reads back modulo 2^W. -/
theorem Operand.val_ofNat (nw v : Nat) : (Operand.ofNat nw v).val = v % 2 ^ (32 * nw) := by
  induction nw generalizing v with
  | zero => simp [Operand.ofNat, Nat.mod_one]
  | succ n ih =>
    have hpow : 2 ^ (32 * (n + 1)) = 2 ^ 32 * 2 ^ (32 * n) := by
      rw [Nat.mul_add, Nat.pow_add, Nat.mul_comm]
    rw [Operand.ofNat, Operand.val_cons, ih, BitVec.toNat_ofNat, hpow, Nat.mod_mul]

/-- A number below 2^W written to a register of NW words reads back as itself (00_scope.md R10: nothing is truncated). -/
theorem Operand.val_ofNat_of_lt {nw v : Nat} (h : v < 2 ^ (32 * nw)) : (Operand.ofNat nw v).val = v := by
  rw [Operand.val_ofNat, Nat.mod_eq_of_lt h]

/-- A register is determined by its number. -/
theorem Operand.ofNat_val (x : Operand) : Operand.ofNat x.length x.val = x := by
  induction x with
  | nil => rfl
  | cons w ws ih =>
    have hw := w.isLt
    rw [List.length_cons, Operand.ofNat, Operand.val_cons]
    have h1 : BitVec.ofNat 32 (w.toNat + 2 ^ 32 * Operand.val ws) = w := by
      apply BitVec.eq_of_toNat_eq
      rw [BitVec.toNat_ofNat, Nat.add_mul_mod_self_left, Nat.mod_eq_of_lt hw]
    have h2 : (w.toNat + 2 ^ 32 * Operand.val ws) / 2 ^ 32 = Operand.val ws := by
      rw [Nat.add_mul_div_left _ _ (by decide), Nat.div_eq_of_lt hw, Nat.zero_add]
    rw [h1, h2, ih]

/-- Word i of a number is v[32*i+31 : 32*i] (00_scope.md R7). -/
theorem Operand.getElem?_ofNat (nw v i : Nat) :
    (Operand.ofNat nw v)[i]? = if i < nw then some (BitVec.ofNat 32 (v / 2 ^ (32 * i))) else none := by
  induction nw generalizing v i with
  | zero => simp [Operand.ofNat]
  | succ n ih =>
    cases i with
    | zero => simp [Operand.ofNat]
    | succ j =>
      rw [Operand.ofNat, List.getElem?_cons_succ, ih, Nat.div_div_eq_div_mul, ← Nat.pow_add]
      have : 32 + 32 * j = 32 * (j + 1) := by omega
      rw [this]
      simp

@[simp] theorem Operand.length_setWord (x : Operand) (i : Nat) (d : Word) : (x.setWord i d).length = x.length := by
  simp [Operand.setWord]

/-- A word reads back as written (20_memory.md R71). -/
theorem Operand.word_setWord_same {x : Operand} {i : Nat} (d : Word) (h : i < x.length) :
    (x.setWord i d).word i = d := by
  simp [Operand.word, Operand.setWord, List.getD_eq_getElem?_getD, h]

/-- The other words keep their value (20_memory.md R71). -/
theorem Operand.word_setWord_other (x : Operand) {i j : Nat} (d : Word) (h : i ≠ j) :
    (x.setWord i d).word j = x.word j := by
  simp [Operand.word, Operand.setWord, List.getD_eq_getElem?_getD, List.getElem?_set_ne h]

namespace Machine

@[simp] theorem length_zeroOperand (nw : Nat) : (zeroOperand nw).length = nw := by simp [zeroOperand]

@[simp] theorem val_zeroOperand (nw : Nat) : (zeroOperand nw).val = 0 := by
  induction nw with
  | zero => rfl
  | succ n ih =>
    have h : zeroOperand (n + 1) = 0#32 :: zeroOperand n := rfl
    rw [h, Operand.val_cons, ih]
    rfl

/-- Zero written to a register: every word 0. -/
theorem ofNat_zero (nw : Nat) : Operand.ofNat nw 0 = zeroOperand nw := by
  induction nw with
  | zero => rfl
  | succ n ih =>
    have h : zeroOperand (n + 1) = 0#32 :: zeroOperand n := rfl
    rw [h, ← ih]
    rfl

namespace Laws

variable {α : Type} {cond : α → Bool} {body : α → α}

/-- A loop keeps what its body keeps while the condition holds. -/
theorem whileLoop_keeps (P : α → Prop) (hstep : ∀ g, cond g = true → P g → P (body g)) (fuel : Nat) (g : α) (h : P g) :
    P (whileLoop cond body fuel g) := by
  induction fuel generalizing g with
  | zero => exact h
  | succ n ih =>
    rw [whileLoop]
    split
    · rename_i hc
      exact ih _ (hstep g hc h)
    · exact h

/-- A loop with at least as much fuel as a measure that every pass lowers ends with its condition false. -/
theorem whileLoop_exits (μ : α → Nat) (P : α → Prop) (hkeep : ∀ g, cond g = true → P g → P (body g))
    (hdown : ∀ g, cond g = true → P g → μ (body g) < μ g) (fuel : Nat) (g : α) (hP : P g)
    (hzero : ∀ g, P g → μ g = 0 → cond g = false) (hfuel : μ g ≤ fuel) :
    cond (whileLoop cond body fuel g) = false := by
  induction fuel generalizing g with
  | zero => exact hzero g hP (by omega)
  | succ n ih =>
    rw [whileLoop]
    split
    · rename_i hc
      have := hdown g hc hP
      exact ih _ (hkeep g hc hP) (by omega)
    · rename_i hc
      simpa using hc

end Laws

end Machine

end Sys2Proof
end

