-- ==== Sys2Proof/Laws/Arith.lean ====
section
/-! SUPPORT. One spec lemma per arithmetic function of the engine: what `pow_mod`, `gcd` and `mod_inverse` compute
(40_mulmod_powmod.md R115, 42_gcd_modinv.md R162 to R166). -/

namespace Sys2Proof.Machine

theorem bitLen_half {x : Nat} (h : 0 < x) : bitLen (x / 2) + 1 = bitLen x := by
  unfold bitLen
  rw [if_neg (Nat.pos_iff_ne_zero.mp h)]
  by_cases hx : 2 ≤ x
  · rw [if_neg (by omega), Nat.log2_def x, if_pos hx]
  · have : x = 1 := by omega
    subst this
    rfl

theorem bitLen_eq_zero {x : Nat} (h : bitLen x = 0) : x = 0 := by
  by_contra hx
  have := bitLen_half (Nat.pos_of_ne_zero hx)
  omega

/-! ### `pow_mod` -/

/-- What the loop of `pow_mod` keeps: v * p^x is the power sought, and v is reduced unless a multiply is still to come. -/
theorem powPass_keeps {b e m : Nat} (hm : 0 < m) (g : PowRegs) (hx : 0 < g.x)
    (h : g.v * g.p ^ g.x ≡ b ^ e [MOD m]) :
    (powPass m g).v * (powPass m g).p ^ (powPass m g).x ≡ b ^ e [MOD m]
      ∧ ((powPass m g).v < m ∨ 0 < (powPass m g).x) := by
  have hsq : (g.p * g.p % m) ^ (g.x / 2) ≡ g.p ^ (2 * (g.x / 2)) [MOD m] := by
    rw [pow_mul, pow_two]
    exact (Nat.mod_modEq _ _).pow _
  rcases Nat.mod_two_eq_zero_or_one g.x with hev | hodd
  · have he : 2 * (g.x / 2) = g.x := by omega
    rw [he] at hsq
    refine ⟨?_, Or.inr ?_⟩
    · simpa [powPass, hev, mulMod] using (hsq.mul_left g.v).trans h
    · show 0 < g.x / 2
      omega
  · have he : g.x = 2 * (g.x / 2) + 1 := by omega
    refine ⟨?_, Or.inl ?_⟩
    · have h1 : g.v * g.p % m * (g.p * g.p % m) ^ (g.x / 2) ≡ g.v * g.p * g.p ^ (2 * (g.x / 2)) [MOD m] :=
        (Nat.mod_modEq _ _).mul hsq
      have h2 : g.v * g.p * g.p ^ (2 * (g.x / 2)) = g.v * g.p ^ g.x := by
        conv_rhs => rw [he, pow_succ]
        ring
      rw [h2] at h1
      simpa [powPass, hodd, mulMod] using h1.trans h
    · simpa [powPass, hodd, mulMod] using Nat.mod_lt _ hm

/-- The loop of `pow_mod` ends with the exponent used up. -/
theorem powRun_x (b e m : Nat) : (powRun b e m).x = 0 := by
  have := Laws.whileLoop_exits (cond := fun g : PowRegs => decide (0 < g.x)) (body := powPass m)
    (fun g => bitLen g.x) (fun _ => True) (fun _ _ _ => trivial)
    (fun g hc _ => by
      have := bitLen_half (of_decide_eq_true hc)
      show bitLen (g.x / 2) < bitLen g.x
      omega)
    (bitLen e) { v := 1, p := b, x := e } trivial
    (fun g _ h => by simp [bitLen_eq_zero h]) (Nat.le_refl _)
  simpa [powRun] using this

/-- The closed form of `pow_mod` (40_mulmod_powmod.md R115). -/
theorem powMod_eq (b e m : Nat) (hm : 0 < m) : powMod b e m = if e = 0 then 1 else b ^ e % m := by
  split
  · rename_i he
    subst he
    rfl
  · rename_i he
    have hkeep := Laws.whileLoop_keeps (cond := fun g : PowRegs => decide (0 < g.x)) (body := powPass m)
      (fun g => g.v * g.p ^ g.x ≡ b ^ e [MOD m] ∧ (g.v < m ∨ 0 < g.x))
      (fun g hc h => powPass_keeps hm g (of_decide_eq_true hc) h.1)
      (bitLen e) { v := 1, p := b, x := e } ⟨by simp [Nat.ModEq.refl], Or.inr (Nat.pos_of_ne_zero he)⟩
    have hx := powRun_x b e m
    unfold powRun at hx
    obtain ⟨hcong, hlt⟩ := hkeep
    rw [hx] at hcong hlt
    have hv : (powRun b e m).v < m := hlt.resolve_right (by omega)
    have h2 : (powRun b e m).v ≡ b ^ e [MOD m] := by simpa [powRun] using hcong
    rw [powMod, ← h2, Nat.mod_eq_of_lt hv]

theorem powMod_lt {b e m : Nat} (hm : 1 < m) : powMod b e m < m := by
  rw [powMod_eq b e m (by omega)]
  split
  · exact hm
  · exact Nat.mod_lt _ (by omega)

/-! ### `gcd` -/

/-- `gcd` is the greatest common divisor (42_gcd_modinv.md R162). -/
theorem gcdLoop_eq (a b : Nat) : gcdLoop a b = Nat.gcd a b := by
  have hkeep := Laws.whileLoop_keeps (cond := fun g : GcdRegs => decide (g.b ≠ 0)) (body := gcdPass)
    (fun g => Nat.gcd g.a g.b = Nat.gcd a b)
    (fun g _ h => by
      show Nat.gcd g.b (g.a % g.b) = _
      rw [← h, Nat.gcd_comm g.b, ← Nat.gcd_rec, Nat.gcd_comm])
    b { a := a, b := b } rfl
  have hexit := Laws.whileLoop_exits (cond := fun g : GcdRegs => decide (g.b ≠ 0)) (body := gcdPass)
    (fun g => g.b) (fun _ => True) (fun _ _ _ => trivial)
    (fun g hc _ => Nat.mod_lt _ (Nat.pos_of_ne_zero (of_decide_eq_true hc)))
    b { a := a, b := b } trivial (fun g _ h => by simp [h]) (Nat.le_refl _)
  have hb : (gcdRun a b).b = 0 := by simpa [gcdRun] using hexit
  have h : Nat.gcd (gcdRun a b).a (gcdRun a b).b = Nat.gcd a b := hkeep
  rw [hb, Nat.gcd_zero_right] at h
  exact h

/-! ### `mod_inverse` -/

/-- What the loop of `mod_inverse` keeps (42_gcd_modinv.md R163, R164): the congruences t * a = r and t' * a = r' modulo n, the
greatest common divisor, the opposite signs, and |t'| * r + |t| * r' = n, whence the bounds. -/
structure InvLoop (a n : Nat) (g : InvRegs) : Prop where
  cong   : (n : Int) ∣ g.t * a - g.r
  cong'  : (n : Int) ∣ g.t' * a - g.r'
  gcd    : Nat.gcd g.r g.r' = Nat.gcd n a
  signs  : g.t * g.t' ≤ 0
  total  : |g.t'| * g.r + |g.t| * g.r' = n
  bound  : |g.t| ≤ n
  bound' : |g.t'| ≤ n

theorem invLoop_start {a n : Nat} (hn : 0 < n) : InvLoop a n { r := n, r' := a, t := 0, t' := 1, q := 0 } where
  cong := by simp
  cong' := by simp
  gcd := rfl
  signs := by simp
  total := by simp
  bound := by simp
  bound' := by simp; omega

theorem sub_div_mul_eq_mod (r r' : Nat) : r - r / r' * r' = r % r' := by
  have := Nat.div_add_mod r r'
  rw [Nat.mul_comm] at this
  omega

theorem invPass_keeps {a n : Nat} {g : InvRegs} (hr : g.r' ≠ 0) (h : InvLoop a n g) : InvLoop a n (invPass g) := by
  obtain ⟨r, r', t, t', q⟩ := g
  obtain ⟨h1, h2, h3, h4, h5, h6, h7⟩ := h
  simp only at hr h1 h2 h3 h4 h5 h6 h7
  have hdiv : (r : Int) = (r / r' : Nat) * r' + (r % r' : Nat) := by
    have := Nat.div_add_mod r r'
    rw [Nat.mul_comm] at this
    exact_mod_cast this.symm
  have habs : |t - (r / r' : Nat) * t'| = |t| + (r / r' : Nat) * |t'| := by
    have hq : (0 : Int) ≤ (r / r' : Nat) := Int.natCast_nonneg _
    generalize ((r / r' : Nat) : Int) = k at hq ⊢
    rcases le_total 0 t with ht | ht <;> rcases le_total 0 t' with ht' | ht'
    · have : t * t' = 0 := le_antisymm h4 (mul_nonneg ht ht')
      rcases mul_eq_zero.mp this with h0 | h0
      · subst h0; rw [zero_sub, abs_neg, abs_mul, abs_of_nonneg hq]; simp
      · subst h0; simp
    · rw [abs_of_nonneg ht, abs_of_nonpos ht', abs_of_nonneg (by nlinarith)]; ring
    · rw [abs_of_nonpos ht, abs_of_nonneg ht', abs_of_nonpos (by nlinarith)]; ring
    · have : t * t' = 0 := le_antisymm h4 (mul_nonneg_of_nonpos_of_nonpos ht ht')
      rcases mul_eq_zero.mp this with h0 | h0
      · subst h0; rw [zero_sub, abs_neg, abs_mul, abs_of_nonneg hq]; simp
      · subst h0; simp
  have htot : |t - (r / r' : Nat) * t'| * r' + |t'| * (r % r' : Nat) = n := by
    rw [habs, ← h5]
    conv_rhs => rw [hdiv]
    ring
  constructor
  · exact h2
  · show (n : Int) ∣ (t - (r / r' : Nat) * t') * a - ((r - r / r' * r' : Nat) : Int)
    rw [sub_div_mul_eq_mod]
    have : (t - (r / r' : Nat) * t') * a - ((r % r' : Nat) : Int)
        = (t * a - r) - (r / r' : Nat) * (t' * a - r') := by
      conv_rhs => rw [hdiv]
      ring
    rw [this]
    exact dvd_sub h1 (Dvd.dvd.mul_left h2 _)
  · show Nat.gcd r' (r - r / r' * r') = _
    rw [sub_div_mul_eq_mod, ← h3, Nat.gcd_comm r', ← Nat.gcd_rec, Nat.gcd_comm]
  · show t' * (t - (r / r' : Nat) * t') ≤ 0
    have hq : (0 : Int) ≤ (r / r' : Nat) := Int.natCast_nonneg _
    nlinarith [mul_nonneg hq (mul_self_nonneg t')]
  · show |t - (r / r' : Nat) * t'| * (r' : Int) + |t'| * ((r - r / r' * r' : Nat) : Int) = n
    rw [sub_div_mul_eq_mod]
    exact htot
  · exact h7
  · show |t - (r / r' : Nat) * t'| ≤ n
    have h8 : (1 : Int) ≤ r' := by exact_mod_cast Nat.pos_of_ne_zero hr
    have h9 : (0 : Int) ≤ |t'| * (r % r' : Nat) := mul_nonneg (abs_nonneg _) (Int.natCast_nonneg _)
    nlinarith [abs_nonneg (t - (r / r' : Nat) * t')]

/-- What the loop of `mod_inverse` leaves: r' is 0, r is the greatest common divisor, and the invariant holds. -/
theorem invRun_spec {a n : Nat} (hn : 0 < n) :
    (invRun a n).r' = 0 ∧ (invRun a n).r = Nat.gcd n a ∧ InvLoop a n (invRun a n) := by
  have hkeep : InvLoop a n (invRun a n) :=
    Laws.whileLoop_keeps (InvLoop a n) (fun g hc h => invPass_keeps (of_decide_eq_true hc) h) a _ (invLoop_start hn)
  have hexit := Laws.whileLoop_exits (cond := fun g : InvRegs => decide (g.r' ≠ 0)) (body := invPass)
    (fun g => g.r') (fun _ => True) (fun _ _ _ => trivial)
    (fun g hc _ => by
      show g.r - g.r / g.r' * g.r' < g.r'
      rw [sub_div_mul_eq_mod]
      exact Nat.mod_lt _ (Nat.pos_of_ne_zero (of_decide_eq_true hc)))
    a { r := n, r' := a, t := 0, t' := 1, q := 0 } trivial (fun g _ h => by simp [h]) (Nat.le_refl _)
  have hr' : (invRun a n).r' = 0 := by simpa [invRun] using hexit
  have hg := hkeep.gcd
  rw [hr', Nat.gcd_zero_right] at hg
  exact ⟨hr', hg, hkeep⟩

/-- `mod_inverse` on operands that are not coprime: the sentinel (42_gcd_modinv.md R166). -/
theorem modInverse_not_coprime {a n : Nat} (hn : 2 ≤ n) (h : Nat.gcd a n ≠ 1) : modInverse a n = (0, true) := by
  obtain ⟨-, hr, -⟩ := invRun_spec (a := a) (by omega : 0 < n)
  have hpos : 0 < Nat.gcd n a := Nat.gcd_pos_of_pos_left _ (by omega)
  rw [Nat.gcd_comm] at h
  rw [modInverse, invResult, hr, if_pos (by omega)]

/-- `mod_inverse` on coprime operands: the inverse, in [1, n) (42_gcd_modinv.md R163, R164). -/
theorem modInverse_coprime {a n : Nat} (hn : 2 ≤ n) (h : Nat.gcd a n = 1) :
    (modInverse a n).2 = false ∧ 0 < (modInverse a n).1 ∧ (modInverse a n).1 < n
      ∧ a * (modInverse a n).1 % n = 1 := by
  obtain ⟨-, hr, hinv⟩ := invRun_spec (a := a) (by omega : 0 < n)
  rw [Nat.gcd_comm, h] at hr
  have hcong := hinv.cong
  have hb := abs_le.mp hinv.bound
  rw [hr] at hcong
  have hnz : ∀ k : Int, (invRun a n).t ≠ k * n := by
    intro k hk
    rw [hk] at hcong
    have h1 : (n : Int) ∣ 1 := by
      have h2 : (n : Int) ∣ k * n * a := Dvd.dvd.mul_right (Dvd.intro_left k rfl) _
      have := dvd_sub h2 hcong
      simpa using this
    have := Int.le_of_dvd (by decide) h1
    omega
  have h0 := hnz 0
  have h1 := hnz 1
  have h2 := hnz (-1)
  have key : ∀ v : Nat, 0 < v → v < n → (n : Int) ∣ (v : Int) * a - 1 → 0 < v ∧ v < n ∧ a * v % n = 1 := by
    intro v hv hvn hd
    refine ⟨hv, hvn, ?_⟩
    have hmod : ((v * a : Nat) : Int) % n = 1 % n := by
      rw [Int.emod_emod_of_dvd _ (dvd_refl (n : Int)) |>.symm]
      have := (Int.emod_emod_of_dvd ((v * a : Nat) : Int) (dvd_refl (n : Int)))
      rw [this]
      exact (Int.emod_eq_emod_iff_emod_sub_eq_zero.mpr (Int.emod_eq_zero_of_dvd (by push_cast; exact hd)))
    rw [Nat.mul_comm]
    have h3 : (1 : Int) % n = 1 := Int.emod_eq_of_lt (by decide) (by omega)
    rw [h3] at hmod
    exact_mod_cast hmod
  rw [modInverse, invResult, hr, if_neg (by decide)]
  split
  · rename_i ht
    refine ⟨rfl, key _ (by omega) (by omega) ?_⟩
    rw [Int.toNat_of_nonneg (by omega)]
    have : ((invRun a n).t + n) * a - 1 = ((invRun a n).t * a - ((1 : Nat) : Int)) + n * a := by push_cast; ring
    rw [this]
    exact dvd_add hcong (Dvd.intro _ rfl)
  · rename_i ht
    refine ⟨rfl, key _ (by omega) (by omega) ?_⟩
    rw [Int.toNat_of_nonneg (by omega)]
    exact hcong

end Sys2Proof.Machine
end

