-- ==== Sys2Proof/Laws/State.lean ====
section
/-! SUPPORT. One lemma per field per named update of the state, true by rfl, so that no proof unfolds a record update. -/

namespace Sys2Proof.Machine

variable (s : State)

/-! ### `accept` (30_encoding.md R95) -/

@[simp] theorem accept_nw (d : Word) : (accept d s).nw = s.nw := rfl
@[simp] theorem accept_a (d : Word) : (accept d s).a = s.a := rfl
@[simp] theorem accept_b (d : Word) : (accept d s).b = s.b := rfl
@[simp] theorem accept_e (d : Word) : (accept d s).e = s.e := rfl
@[simp] theorem accept_m (d : Word) : (accept d s).m = s.m := rfl
@[simp] theorem accept_r (d : Word) : (accept d s).r = s.r := rfl
@[simp] theorem accept_cmd (d : Word) : (accept d s).cmd = d := rfl
@[simp] theorem accept_status (d : Word) : (accept d s).status = s.status.accepted := rfl
@[simp] theorem accept_ctrl (d : Word) : (accept d s).ctrl = s.ctrl := rfl
@[simp] theorem accept_iters (d : Word) : (accept d s).iters = s.iters := rfl
@[simp] theorem accept_seq (d : Word) : (accept d s).seq = .run := rfl
@[simp] theorem accept_work (d : Word) : (accept d s).work = { s.work with ph := .start } := rfl
@[simp] theorem accept_rndBound (d : Word) : (accept d s).rndBound = s.rndBound := rfl
@[simp] theorem accept_rst (d : Word) : (accept d s).rst = s.rst := rfl
@[simp] theorem accept_answer (d : Word) : (accept d s).answer = s.answer := rfl
@[simp] theorem accept_schedule (d : Word) : (accept d s).schedule = s.schedule := rfl
@[simp] theorem accept_fresh (d : Word) : (accept d s).fresh = s.fresh := rfl

/-! ### `complete` (60_exceptions.md R183) -/

@[simp] theorem complete_nw (v : Nat) (p n : Bool) : (complete v p n s).nw = s.nw := rfl
@[simp] theorem complete_a (v : Nat) (p n : Bool) : (complete v p n s).a = s.a := rfl
@[simp] theorem complete_b (v : Nat) (p n : Bool) : (complete v p n s).b = s.b := rfl
@[simp] theorem complete_e (v : Nat) (p n : Bool) : (complete v p n s).e = s.e := rfl
@[simp] theorem complete_m (v : Nat) (p n : Bool) : (complete v p n s).m = s.m := rfl
@[simp] theorem complete_r (v : Nat) (p n : Bool) : (complete v p n s).r = Operand.ofNat s.nw v := rfl
@[simp] theorem complete_cmd (v : Nat) (p n : Bool) : (complete v p n s).cmd = s.cmd := rfl
@[simp] theorem complete_status (v : Nat) (p n : Bool) : (complete v p n s).status = s.status.completed p n := rfl
@[simp] theorem complete_ctrl (v : Nat) (p n : Bool) : (complete v p n s).ctrl = s.ctrl := rfl
@[simp] theorem complete_iters (v : Nat) (p n : Bool) : (complete v p n s).iters = s.iters := rfl
@[simp] theorem complete_seq (v : Nat) (p n : Bool) : (complete v p n s).seq = .idle := rfl
@[simp] theorem complete_work (v : Nat) (p n : Bool) : (complete v p n s).work = freeWork s.fresh := rfl
@[simp] theorem complete_rndBound (v : Nat) (p n : Bool) : (complete v p n s).rndBound = s.rndBound := rfl
@[simp] theorem complete_rst (v : Nat) (p n : Bool) : (complete v p n s).rst = s.rst := rfl
@[simp] theorem complete_answer (v : Nat) (p n : Bool) : (complete v p n s).answer = s.answer := rfl
@[simp] theorem complete_schedule (v : Nat) (p n : Bool) : (complete v p n s).schedule = s.schedule := rfl
@[simp] theorem complete_fresh (v : Nat) (p n : Bool) : (complete v p n s).fresh = s.fresh + 1 := rfl

/-! ### `raiseErr` (60_exceptions.md R184) -/

@[simp] theorem raiseErr_nw (c : ErrorCause) : (raiseErr c s).nw = s.nw := rfl
@[simp] theorem raiseErr_a (c : ErrorCause) : (raiseErr c s).a = s.a := rfl
@[simp] theorem raiseErr_b (c : ErrorCause) : (raiseErr c s).b = s.b := rfl
@[simp] theorem raiseErr_e (c : ErrorCause) : (raiseErr c s).e = s.e := rfl
@[simp] theorem raiseErr_m (c : ErrorCause) : (raiseErr c s).m = s.m := rfl
@[simp] theorem raiseErr_r (c : ErrorCause) : (raiseErr c s).r = Operand.ofNat s.nw 0 := rfl
@[simp] theorem raiseErr_cmd (c : ErrorCause) : (raiseErr c s).cmd = s.cmd := rfl
@[simp] theorem raiseErr_status (c : ErrorCause) : (raiseErr c s).status = s.status.failed (errorCode c) := rfl
@[simp] theorem raiseErr_ctrl (c : ErrorCause) : (raiseErr c s).ctrl = s.ctrl := rfl
@[simp] theorem raiseErr_iters (c : ErrorCause) : (raiseErr c s).iters = s.iters := rfl
@[simp] theorem raiseErr_seq (c : ErrorCause) : (raiseErr c s).seq = .idle := rfl
@[simp] theorem raiseErr_work (c : ErrorCause) : (raiseErr c s).work = freeWork s.fresh := rfl
@[simp] theorem raiseErr_rndBound (c : ErrorCause) : (raiseErr c s).rndBound = s.rndBound := rfl
@[simp] theorem raiseErr_rst (c : ErrorCause) : (raiseErr c s).rst = s.rst := rfl
@[simp] theorem raiseErr_answer (c : ErrorCause) : (raiseErr c s).answer = s.answer := rfl
@[simp] theorem raiseErr_schedule (c : ErrorCause) : (raiseErr c s).schedule = s.schedule := rfl
@[simp] theorem raiseErr_fresh (c : ErrorCause) : (raiseErr c s).fresh = s.fresh + 1 := rfl

/-! ### `dropWrite` (10_state.md R37) -/

@[simp] theorem dropWrite_nw : (dropWrite s).nw = s.nw := rfl
@[simp] theorem dropWrite_a : (dropWrite s).a = s.a := rfl
@[simp] theorem dropWrite_b : (dropWrite s).b = s.b := rfl
@[simp] theorem dropWrite_e : (dropWrite s).e = s.e := rfl
@[simp] theorem dropWrite_m : (dropWrite s).m = s.m := rfl
@[simp] theorem dropWrite_r : (dropWrite s).r = s.r := rfl
@[simp] theorem dropWrite_cmd : (dropWrite s).cmd = s.cmd := rfl
@[simp] theorem dropWrite_status : (dropWrite s).status = s.status.setHaz := rfl
@[simp] theorem dropWrite_ctrl : (dropWrite s).ctrl = s.ctrl := rfl
@[simp] theorem dropWrite_iters : (dropWrite s).iters = s.iters := rfl
@[simp] theorem dropWrite_seq : (dropWrite s).seq = s.seq := rfl
@[simp] theorem dropWrite_work : (dropWrite s).work = s.work := rfl
@[simp] theorem dropWrite_rndBound : (dropWrite s).rndBound = s.rndBound := rfl
@[simp] theorem dropWrite_rst : (dropWrite s).rst = s.rst := rfl
@[simp] theorem dropWrite_answer : (dropWrite s).answer = s.answer := rfl
@[simp] theorem dropWrite_schedule : (dropWrite s).schedule = s.schedule := rfl
@[simp] theorem dropWrite_fresh : (dropWrite s).fresh = s.fresh := rfl

/-! ### `requestDraw` (41_isprime.md R134) -/

@[simp] theorem requestDraw_nw (g : PrimeRegs) : (requestDraw g s).nw = s.nw := rfl
@[simp] theorem requestDraw_a (g : PrimeRegs) : (requestDraw g s).a = s.a := rfl
@[simp] theorem requestDraw_b (g : PrimeRegs) : (requestDraw g s).b = s.b := rfl
@[simp] theorem requestDraw_e (g : PrimeRegs) : (requestDraw g s).e = s.e := rfl
@[simp] theorem requestDraw_m (g : PrimeRegs) : (requestDraw g s).m = s.m := rfl
@[simp] theorem requestDraw_r (g : PrimeRegs) : (requestDraw g s).r = s.r := rfl
@[simp] theorem requestDraw_cmd (g : PrimeRegs) : (requestDraw g s).cmd = s.cmd := rfl
@[simp] theorem requestDraw_status (g : PrimeRegs) : (requestDraw g s).status = s.status.withRndwait true := rfl
@[simp] theorem requestDraw_ctrl (g : PrimeRegs) : (requestDraw g s).ctrl = s.ctrl := rfl
@[simp] theorem requestDraw_iters (g : PrimeRegs) : (requestDraw g s).iters = s.iters := rfl
@[simp] theorem requestDraw_seq (g : PrimeRegs) : (requestDraw g s).seq = .wait := rfl
@[simp] theorem requestDraw_work (g : PrimeRegs) : (requestDraw g s).work = waitingWork g s.fresh := rfl
@[simp] theorem requestDraw_rndBound (g : PrimeRegs) : (requestDraw g s).rndBound = Operand.ofNat s.nw (g.n - 3) := rfl
@[simp] theorem requestDraw_rst (g : PrimeRegs) : (requestDraw g s).rst = s.rst := rfl
@[simp] theorem requestDraw_answer (g : PrimeRegs) : (requestDraw g s).answer = s.answer := rfl
@[simp] theorem requestDraw_schedule (g : PrimeRegs) : (requestDraw g s).schedule = s.schedule := rfl
@[simp] theorem requestDraw_fresh (g : PrimeRegs) : (requestDraw g s).fresh = s.fresh + 1 := rfl

/-! ### `takeAnswer` (41_isprime.md R141) -/

@[simp] theorem takeAnswer_nw (w : Nat) : (takeAnswer w s).nw = s.nw := rfl
@[simp] theorem takeAnswer_a (w : Nat) : (takeAnswer w s).a = s.a := rfl
@[simp] theorem takeAnswer_b (w : Nat) : (takeAnswer w s).b = s.b := rfl
@[simp] theorem takeAnswer_e (w : Nat) : (takeAnswer w s).e = s.e := rfl
@[simp] theorem takeAnswer_m (w : Nat) : (takeAnswer w s).m = s.m := rfl
@[simp] theorem takeAnswer_r (w : Nat) : (takeAnswer w s).r = s.r := rfl
@[simp] theorem takeAnswer_cmd (w : Nat) : (takeAnswer w s).cmd = s.cmd := rfl
@[simp] theorem takeAnswer_status (w : Nat) : (takeAnswer w s).status = s.status.withRndwait false := rfl
@[simp] theorem takeAnswer_ctrl (w : Nat) : (takeAnswer w s).ctrl = s.ctrl := rfl
@[simp] theorem takeAnswer_iters (w : Nat) : (takeAnswer w s).iters = s.iters := rfl
@[simp] theorem takeAnswer_seq (w : Nat) : (takeAnswer w s).seq = .run := rfl
@[simp] theorem takeAnswer_work (w : Nat) : (takeAnswer w s).work = { s.work with prime := { s.work.prime with wdraw := w } } := rfl
@[simp] theorem takeAnswer_rndBound (w : Nat) : (takeAnswer w s).rndBound = s.rndBound := rfl
@[simp] theorem takeAnswer_rst (w : Nat) : (takeAnswer w s).rst = s.rst := rfl
@[simp] theorem takeAnswer_answer (w : Nat) : (takeAnswer w s).answer = s.answer := rfl
@[simp] theorem takeAnswer_schedule (w : Nat) : (takeAnswer w s).schedule = s.schedule := rfl
@[simp] theorem takeAnswer_fresh (w : Nat) : (takeAnswer w s).fresh = s.fresh := rfl

/-! ### `assertReset` (70_reset_and_hazards.md R210) -/

@[simp] theorem assertReset_nw : (assertReset s).nw = s.nw := rfl
@[simp] theorem assertReset_a : (assertReset s).a = zeroOperand s.nw := rfl
@[simp] theorem assertReset_b : (assertReset s).b = zeroOperand s.nw := rfl
@[simp] theorem assertReset_e : (assertReset s).e = zeroOperand s.nw := rfl
@[simp] theorem assertReset_m : (assertReset s).m = zeroOperand s.nw := rfl
@[simp] theorem assertReset_r : (assertReset s).r = zeroOperand s.nw := rfl
@[simp] theorem assertReset_cmd : (assertReset s).cmd = 0#32 := rfl
@[simp] theorem assertReset_status : (assertReset s).status = Status.reset := rfl
@[simp] theorem assertReset_ctrl : (assertReset s).ctrl = { ien := false } := rfl
@[simp] theorem assertReset_iters : (assertReset s).iters = 0#32 := rfl
@[simp] theorem assertReset_seq : (assertReset s).seq = .idle := rfl
@[simp] theorem assertReset_work : (assertReset s).work = freeWork s.fresh := rfl
@[simp] theorem assertReset_rndBound : (assertReset s).rndBound = zeroOperand s.nw := rfl
@[simp] theorem assertReset_rst : (assertReset s).rst = true := rfl
@[simp] theorem assertReset_answer : (assertReset s).answer = s.answer := rfl
@[simp] theorem assertReset_schedule : (assertReset s).schedule = s.schedule := rfl
@[simp] theorem assertReset_fresh : (assertReset s).fresh = s.fresh + 1 := rfl

/-! ### `releaseReset` (70_reset_and_hazards.md R210) -/

@[simp] theorem releaseReset_nw : (releaseReset s).nw = s.nw := rfl
@[simp] theorem releaseReset_a : (releaseReset s).a = s.a := rfl
@[simp] theorem releaseReset_b : (releaseReset s).b = s.b := rfl
@[simp] theorem releaseReset_e : (releaseReset s).e = s.e := rfl
@[simp] theorem releaseReset_m : (releaseReset s).m = s.m := rfl
@[simp] theorem releaseReset_r : (releaseReset s).r = s.r := rfl
@[simp] theorem releaseReset_cmd : (releaseReset s).cmd = s.cmd := rfl
@[simp] theorem releaseReset_status : (releaseReset s).status = s.status := rfl
@[simp] theorem releaseReset_ctrl : (releaseReset s).ctrl = s.ctrl := rfl
@[simp] theorem releaseReset_iters : (releaseReset s).iters = s.iters := rfl
@[simp] theorem releaseReset_seq : (releaseReset s).seq = s.seq := rfl
@[simp] theorem releaseReset_work : (releaseReset s).work = s.work := rfl
@[simp] theorem releaseReset_rndBound : (releaseReset s).rndBound = s.rndBound := rfl
@[simp] theorem releaseReset_rst : (releaseReset s).rst = false := rfl
@[simp] theorem releaseReset_answer : (releaseReset s).answer = s.answer := rfl
@[simp] theorem releaseReset_schedule : (releaseReset s).schedule = s.schedule := rfl
@[simp] theorem releaseReset_fresh : (releaseReset s).fresh = s.fresh := rfl

/-! ### `writeStatus` (20_memory.md R69) -/

@[simp] theorem writeStatus_nw (d : Word) : (writeStatus d s).nw = s.nw := rfl
@[simp] theorem writeStatus_a (d : Word) : (writeStatus d s).a = s.a := rfl
@[simp] theorem writeStatus_b (d : Word) : (writeStatus d s).b = s.b := rfl
@[simp] theorem writeStatus_e (d : Word) : (writeStatus d s).e = s.e := rfl
@[simp] theorem writeStatus_m (d : Word) : (writeStatus d s).m = s.m := rfl
@[simp] theorem writeStatus_r (d : Word) : (writeStatus d s).r = s.r := rfl
@[simp] theorem writeStatus_cmd (d : Word) : (writeStatus d s).cmd = s.cmd := rfl
@[simp] theorem writeStatus_status (d : Word) : (writeStatus d s).status = s.status.writeOneToClear d := rfl
@[simp] theorem writeStatus_ctrl (d : Word) : (writeStatus d s).ctrl = s.ctrl := rfl
@[simp] theorem writeStatus_iters (d : Word) : (writeStatus d s).iters = s.iters := rfl
@[simp] theorem writeStatus_seq (d : Word) : (writeStatus d s).seq = s.seq := rfl
@[simp] theorem writeStatus_work (d : Word) : (writeStatus d s).work = s.work := rfl
@[simp] theorem writeStatus_rndBound (d : Word) : (writeStatus d s).rndBound = s.rndBound := rfl
@[simp] theorem writeStatus_rst (d : Word) : (writeStatus d s).rst = s.rst := rfl
@[simp] theorem writeStatus_answer (d : Word) : (writeStatus d s).answer = s.answer := rfl
@[simp] theorem writeStatus_schedule (d : Word) : (writeStatus d s).schedule = s.schedule := rfl
@[simp] theorem writeStatus_fresh (d : Word) : (writeStatus d s).fresh = s.fresh := rfl

/-! ### `writeCtrl` (20_memory.md R70) -/

@[simp] theorem writeCtrl_nw (d : Word) : (writeCtrl d s).nw = s.nw := rfl
@[simp] theorem writeCtrl_a (d : Word) : (writeCtrl d s).a = s.a := rfl
@[simp] theorem writeCtrl_b (d : Word) : (writeCtrl d s).b = s.b := rfl
@[simp] theorem writeCtrl_e (d : Word) : (writeCtrl d s).e = s.e := rfl
@[simp] theorem writeCtrl_m (d : Word) : (writeCtrl d s).m = s.m := rfl
@[simp] theorem writeCtrl_r (d : Word) : (writeCtrl d s).r = s.r := rfl
@[simp] theorem writeCtrl_cmd (d : Word) : (writeCtrl d s).cmd = s.cmd := rfl
@[simp] theorem writeCtrl_status (d : Word) : (writeCtrl d s).status = s.status := rfl
@[simp] theorem writeCtrl_ctrl (d : Word) : (writeCtrl d s).ctrl = Ctrl.ofWord d := rfl
@[simp] theorem writeCtrl_iters (d : Word) : (writeCtrl d s).iters = s.iters := rfl
@[simp] theorem writeCtrl_seq (d : Word) : (writeCtrl d s).seq = s.seq := rfl
@[simp] theorem writeCtrl_work (d : Word) : (writeCtrl d s).work = s.work := rfl
@[simp] theorem writeCtrl_rndBound (d : Word) : (writeCtrl d s).rndBound = s.rndBound := rfl
@[simp] theorem writeCtrl_rst (d : Word) : (writeCtrl d s).rst = s.rst := rfl
@[simp] theorem writeCtrl_answer (d : Word) : (writeCtrl d s).answer = s.answer := rfl
@[simp] theorem writeCtrl_schedule (d : Word) : (writeCtrl d s).schedule = s.schedule := rfl
@[simp] theorem writeCtrl_fresh (d : Word) : (writeCtrl d s).fresh = s.fresh := rfl

/-! ### `answerHost` (10_state.md R44) -/

@[simp] theorem answerHost_nw (x : BusAnswer) : (answerHost x s).nw = s.nw := rfl
@[simp] theorem answerHost_a (x : BusAnswer) : (answerHost x s).a = s.a := rfl
@[simp] theorem answerHost_b (x : BusAnswer) : (answerHost x s).b = s.b := rfl
@[simp] theorem answerHost_e (x : BusAnswer) : (answerHost x s).e = s.e := rfl
@[simp] theorem answerHost_m (x : BusAnswer) : (answerHost x s).m = s.m := rfl
@[simp] theorem answerHost_r (x : BusAnswer) : (answerHost x s).r = s.r := rfl
@[simp] theorem answerHost_cmd (x : BusAnswer) : (answerHost x s).cmd = s.cmd := rfl
@[simp] theorem answerHost_status (x : BusAnswer) : (answerHost x s).status = s.status := rfl
@[simp] theorem answerHost_ctrl (x : BusAnswer) : (answerHost x s).ctrl = s.ctrl := rfl
@[simp] theorem answerHost_iters (x : BusAnswer) : (answerHost x s).iters = s.iters := rfl
@[simp] theorem answerHost_seq (x : BusAnswer) : (answerHost x s).seq = s.seq := rfl
@[simp] theorem answerHost_work (x : BusAnswer) : (answerHost x s).work = s.work := rfl
@[simp] theorem answerHost_rndBound (x : BusAnswer) : (answerHost x s).rndBound = s.rndBound := rfl
@[simp] theorem answerHost_rst (x : BusAnswer) : (answerHost x s).rst = s.rst := rfl
@[simp] theorem answerHost_answer (x : BusAnswer) : (answerHost x s).answer = some x := rfl
@[simp] theorem answerHost_schedule (x : BusAnswer) : (answerHost x s).schedule = s.schedule := rfl
@[simp] theorem answerHost_fresh (x : BusAnswer) : (answerHost x s).fresh = s.fresh := rfl

/-! ### `setBank` (10_state.md R21) -/

@[simp] theorem setBank_nw (x : Bank) (v : Operand) : (s.setBank x v).nw = s.nw := by cases x <;> rfl
@[simp] theorem setBank_r (x : Bank) (v : Operand) : (s.setBank x v).r = s.r := by cases x <;> rfl
@[simp] theorem setBank_cmd (x : Bank) (v : Operand) : (s.setBank x v).cmd = s.cmd := by cases x <;> rfl
@[simp] theorem setBank_status (x : Bank) (v : Operand) : (s.setBank x v).status = s.status := by cases x <;> rfl
@[simp] theorem setBank_ctrl (x : Bank) (v : Operand) : (s.setBank x v).ctrl = s.ctrl := by cases x <;> rfl
@[simp] theorem setBank_iters (x : Bank) (v : Operand) : (s.setBank x v).iters = s.iters := by cases x <;> rfl
@[simp] theorem setBank_seq (x : Bank) (v : Operand) : (s.setBank x v).seq = s.seq := by cases x <;> rfl
@[simp] theorem setBank_work (x : Bank) (v : Operand) : (s.setBank x v).work = s.work := by cases x <;> rfl
@[simp] theorem setBank_rndBound (x : Bank) (v : Operand) : (s.setBank x v).rndBound = s.rndBound := by cases x <;> rfl
@[simp] theorem setBank_rst (x : Bank) (v : Operand) : (s.setBank x v).rst = s.rst := by cases x <;> rfl
@[simp] theorem setBank_answer (x : Bank) (v : Operand) : (s.setBank x v).answer = s.answer := by cases x <;> rfl
@[simp] theorem setBank_schedule (x : Bank) (v : Operand) : (s.setBank x v).schedule = s.schedule := by cases x <;> rfl
@[simp] theorem setBank_fresh (x : Bank) (v : Operand) : (s.setBank x v).fresh = s.fresh := by cases x <;> rfl

@[simp] theorem setBank_bank_same (x : Bank) (v : Operand) : (s.setBank x v).bank x = v := by cases x <;> rfl

theorem setBank_bank_other {x y : Bank} (v : Operand) (h : y ≠ x) : (s.setBank x v).bank y = s.bank y := by
  cases x <;> cases y <;> first | rfl | exact absurd rfl h

/-! ### The flags (10_state.md R31) -/

@[simp] theorem accepted_busy (f : Status) : (f.accepted).busy = true := rfl
@[simp] theorem accepted_done (f : Status) : (f.accepted).done = false := rfl
@[simp] theorem accepted_err (f : Status) : (f.accepted).err = false := rfl
@[simp] theorem accepted_prime (f : Status) : (f.accepted).prime = false := rfl
@[simp] theorem accepted_noinv (f : Status) : (f.accepted).noinv = false := rfl
@[simp] theorem accepted_haz (f : Status) : (f.accepted).haz = f.haz := rfl
@[simp] theorem accepted_rndwait (f : Status) : (f.accepted).rndwait = f.rndwait := rfl
@[simp] theorem accepted_errcode (f : Status) : (f.accepted).errcode = 0#4 := rfl

@[simp] theorem completed_busy (f : Status) (p n : Bool) : (f.completed p n).busy = false := rfl
@[simp] theorem completed_done (f : Status) (p n : Bool) : (f.completed p n).done = true := rfl
@[simp] theorem completed_err (f : Status) (p n : Bool) : (f.completed p n).err = false := rfl
@[simp] theorem completed_prime (f : Status) (p n : Bool) : (f.completed p n).prime = p := rfl
@[simp] theorem completed_noinv (f : Status) (p n : Bool) : (f.completed p n).noinv = n := rfl
@[simp] theorem completed_haz (f : Status) (p n : Bool) : (f.completed p n).haz = f.haz := rfl
@[simp] theorem completed_rndwait (f : Status) (p n : Bool) : (f.completed p n).rndwait = false := rfl
@[simp] theorem completed_errcode (f : Status) (p n : Bool) : (f.completed p n).errcode = 0#4 := rfl

@[simp] theorem failed_busy (f : Status) (c : BitVec 4) : (f.failed c).busy = false := rfl
@[simp] theorem failed_done (f : Status) (c : BitVec 4) : (f.failed c).done = true := rfl
@[simp] theorem failed_err (f : Status) (c : BitVec 4) : (f.failed c).err = true := rfl
@[simp] theorem failed_prime (f : Status) (c : BitVec 4) : (f.failed c).prime = false := rfl
@[simp] theorem failed_noinv (f : Status) (c : BitVec 4) : (f.failed c).noinv = false := rfl
@[simp] theorem failed_haz (f : Status) (c : BitVec 4) : (f.failed c).haz = f.haz := rfl
@[simp] theorem failed_rndwait (f : Status) (c : BitVec 4) : (f.failed c).rndwait = false := rfl
@[simp] theorem failed_errcode (f : Status) (c : BitVec 4) : (f.failed c).errcode = c := rfl

@[simp] theorem setHaz_busy (f : Status) : (f.setHaz).busy = f.busy := rfl
@[simp] theorem setHaz_done (f : Status) : (f.setHaz).done = f.done := rfl
@[simp] theorem setHaz_err (f : Status) : (f.setHaz).err = f.err := rfl
@[simp] theorem setHaz_prime (f : Status) : (f.setHaz).prime = f.prime := rfl
@[simp] theorem setHaz_noinv (f : Status) : (f.setHaz).noinv = f.noinv := rfl
@[simp] theorem setHaz_haz (f : Status) : (f.setHaz).haz = true := rfl
@[simp] theorem setHaz_rndwait (f : Status) : (f.setHaz).rndwait = f.rndwait := rfl
@[simp] theorem setHaz_errcode (f : Status) : (f.setHaz).errcode = f.errcode := rfl

@[simp] theorem withRndwait_busy (f : Status) (v : Bool) : (f.withRndwait v).busy = f.busy := rfl
@[simp] theorem withRndwait_done (f : Status) (v : Bool) : (f.withRndwait v).done = f.done := rfl
@[simp] theorem withRndwait_err (f : Status) (v : Bool) : (f.withRndwait v).err = f.err := rfl
@[simp] theorem withRndwait_prime (f : Status) (v : Bool) : (f.withRndwait v).prime = f.prime := rfl
@[simp] theorem withRndwait_noinv (f : Status) (v : Bool) : (f.withRndwait v).noinv = f.noinv := rfl
@[simp] theorem withRndwait_haz (f : Status) (v : Bool) : (f.withRndwait v).haz = f.haz := rfl
@[simp] theorem withRndwait_rndwait (f : Status) (v : Bool) : (f.withRndwait v).rndwait = v := rfl
@[simp] theorem withRndwait_errcode (f : Status) (v : Bool) : (f.withRndwait v).errcode = f.errcode := rfl

@[simp] theorem writeOneToClear_busy (f : Status) (d : Word) : (f.writeOneToClear d).busy = f.busy := rfl
@[simp] theorem writeOneToClear_done (f : Status) (d : Word) : (f.writeOneToClear d).done = (if d.getLsbD 1 then false else f.done) := rfl
@[simp] theorem writeOneToClear_err (f : Status) (d : Word) : (f.writeOneToClear d).err = f.err := rfl
@[simp] theorem writeOneToClear_prime (f : Status) (d : Word) : (f.writeOneToClear d).prime = f.prime := rfl
@[simp] theorem writeOneToClear_noinv (f : Status) (d : Word) : (f.writeOneToClear d).noinv = f.noinv := rfl
@[simp] theorem writeOneToClear_haz (f : Status) (d : Word) : (f.writeOneToClear d).haz = (if d.getLsbD 5 then false else f.haz) := rfl
@[simp] theorem writeOneToClear_rndwait (f : Status) (d : Word) : (f.writeOneToClear d).rndwait = f.rndwait := rfl
@[simp] theorem writeOneToClear_errcode (f : Status) (d : Word) : (f.writeOneToClear d).errcode = f.errcode := rfl

end Sys2Proof.Machine
end

