-- ==== Sys2Proof/Laws/Witness.lean ====
section
/-! SUPPORT. The witness loop: the decomposition n - 1 = 2^s * r (41_isprime.md R132), and a round on the working registers
(R133) against the same round in `is_prime` (R135). -/

namespace Sys2Proof.Machine

/-! ### The decomposition -/

theorem decomposePass_n (g : PrimeRegs) : (decomposePass g).n = g.n := rfl

/-- What the decomposition leaves (R132): n - 1 = 2^s * r with r odd, s at least 1 where n is odd, n and k as they were, round 1. -/
theorem decompose_spec (g : PrimeRegs) (hn : 2 ≤ g.n) :
    (decompose g).n = g.n ∧ (decompose g).k = g.k ∧ (decompose g).i = 1
      ∧ g.n - 1 = 2 ^ (decompose g).s * (decompose g).r ∧ (decompose g).r % 2 = 1
      ∧ (g.n % 2 = 1 → 1 ≤ (decompose g).s) := by
  let P : PrimeRegs → Prop := fun h =>
    h.n = g.n ∧ h.k = g.k ∧ h.i = 1 ∧ g.n - 1 = 2 ^ h.s * h.r ∧ 0 < h.r ∧ (1 ≤ h.s ∨ h.r = g.n - 1)
  have hP : ∀ h : PrimeRegs, decide (h.r % 2 = 0) = true → P h → P (decomposePass h) := by
    intro h hc hh
    have hr := of_decide_eq_true hc
    obtain ⟨h1, h2, h3, h4, h5, -⟩ := hh
    refine ⟨h1, h2, h3, ?_, ?_, Or.inl ?_⟩
    · show g.n - 1 = 2 ^ (h.s + 1) * (h.r / 2)
      rw [h4, Nat.pow_succ, Nat.mul_assoc]
      congr 1
      omega
    · show 0 < h.r / 2
      omega
    · show 1 ≤ h.s + 1
      omega
  have hstart : P { g with s := 0, r := g.n - 1, i := 1 } :=
    ⟨rfl, rfl, rfl, (Nat.one_mul _).symm, by show 0 < g.n - 1; omega, Or.inr rfl⟩
  have hkeep : P (decompose g) := Laws.whileLoop_keeps P hP _ _ hstart
  have hexit := Laws.whileLoop_exits (cond := fun h : PrimeRegs => decide (h.r % 2 = 0)) (body := decomposePass)
    (fun h => bitLen h.r) P hP
    (fun h hc hh => by
      have := bitLen_half hh.2.2.2.2.1
      show bitLen (h.r / 2) < bitLen h.r
      omega)
    (bitLen (g.n - 1)) { g with s := 0, r := g.n - 1, i := 1 } hstart
    (fun h hh hz => by
      have := bitLen_eq_zero hz
      have := hh.2.2.2.2.1
      omega)
    (Nat.le_refl _)
  have hodd : (decompose g).r % 2 = 1 := by
    have : ¬ (decompose g).r % 2 = 0 := of_decide_eq_false hexit
    omega
  refine ⟨hkeep.1, hkeep.2.1, hkeep.2.2.1, hkeep.2.2.2.1, hodd, fun hnodd => ?_⟩
  rcases hkeep.2.2.2.2.2 with h | h
  · exact h
  · rw [h] at hodd
    omega

/-- How many times 2 divides a number is read off its form 2^s * r with r odd. -/
theorem twosIn_eq (s r fuel : Nat) (hr : r % 2 = 1) (hfuel : bitLen (2 ^ s * r) ≤ fuel) : twosIn fuel (2 ^ s * r) = s := by
  have hpos : ∀ k, 0 < 2 ^ k * r := fun k => Nat.mul_pos (Nat.two_pow_pos k) (by omega)
  induction s generalizing fuel with
  | zero =>
    cases fuel with
    | zero => rfl
    | succ f => simp [twosIn, hr]
  | succ s ih =>
    have hhalf : 2 ^ (s + 1) * r / 2 = 2 ^ s * r := by
      rw [Nat.pow_succ, Nat.mul_comm (2 ^ s) 2, Nat.mul_assoc]
      omega
    have hb := bitLen_half (hpos (s + 1))
    rw [hhalf] at hb
    cases fuel with
    | zero => omega
    | succ f =>
      have hev : 2 ^ (s + 1) * r % 2 = 0 := by
        rw [Nat.pow_succ, Nat.mul_comm (2 ^ s) 2, Nat.mul_assoc]
        omega
      rw [twosIn, if_pos hev, hhalf, ih f (by omega)]

/-- s and r of n - 1 = 2^s * r with r odd are unique: they are `millerS` and `millerR`. -/
theorem miller_eq {n s r : Nat} (h : n - 1 = 2 ^ s * r) (hr : r % 2 = 1) : millerS n = s ∧ millerR n = r := by
  have hs : millerS n = s := by
    unfold millerS
    rw [h]
    exact twosIn_eq s r _ hr (Nat.le_refl _)
  refine ⟨hs, ?_⟩
  unfold millerR
  rw [hs, h, Nat.mul_div_cancel_left _ (Nat.two_pow_pos s)]

/-! ### One round -/

/-- The squaring loop on the registers y and j is the squarings of `is_prime` (R133, R135). -/
theorem squaringLoop_eq (left : Nat) (g : PrimeRegs) (hj : g.j + left = g.s) (hj1 : 1 ≤ g.j) :
    squaringsPass (squaringLoop left g) = squaringsReach g.n left g.y := by
  induction left generalizing g with
  | zero => rfl
  | succ l ih =>
    unfold squaringLoop squaringsReach mulMod
    by_cases hy : g.y = g.n - 1
    · simp [hy, squaringsPass]
    · rw [if_pos ⟨by omega, hy⟩, if_neg hy]
      split
      · rfl
      · exact ih { g with y := g.y * g.y % g.n, j := g.j + 1 } (by simp only; omega) (by simp only; omega)

@[simp] theorem roundEnter_y (g : PrimeRegs) : (roundEnter g).y = powMod (g.wdraw + 2) g.r g.n := rfl

/-- A round on the working registers passes exactly where the witness wdraw + 2 of `is_prime` does (R133, R135). -/
theorem roundPasses_eq (g : PrimeRegs) (h : g.n - 1 = 2 ^ g.s * g.r) (hr : g.r % 2 = 1) (hs : 1 ≤ g.s) :
    roundPasses g = witnessPasses g.n (g.wdraw + 2) := by
  obtain ⟨hms, hmr⟩ := miller_eq h hr
  have hsq : squaringsPass (squaringLoop (g.s - 1) (roundEnter g))
      = squaringsReach g.n (g.s - 1) (powMod (g.wdraw + 2) g.r g.n) :=
    squaringLoop_eq (g.s - 1) (roundEnter g) (by simp only [roundEnter]; omega) (by simp [roundEnter])
  unfold roundPasses witnessPasses
  rw [hms, hmr, hsq, roundEnter_y]
  by_cases h1 : powMod (g.wdraw + 2) g.r g.n = 1 <;> by_cases h2 : powMod (g.wdraw + 2) g.r g.n = g.n - 1 <;>
    simp [h1, h2]

end Sys2Proof.Machine
end

