-- ==== Sys2Proof/Laws/Engine.lean ====
section
/-! SUPPORT. What a step can do, said once: the inversion lemmas of the commands, of the engine, of the bus, of the channel and
of the step itself. -/

namespace Sys2Proof.Machine

/-! ### The commands -/

/-- How a completion of command `i` with result `v` and flags `p` (PRIME) and `n` (NOINV) is limited (60_exceptions.md R183). -/
def ResultOk (i : Instr) (v : Nat) (p n : Bool) : Prop :=
  (p = true → i = .isprime) ∧ (n = true → i = .modinv ∧ v = 0) ∧ (i = .isprime → v = p.toNat)

/-- What a draw request of ISPRIME can be (41_isprime.md R132, R133, R134). -/
def DrawOk (s : State) (g : PrimeRegs) : Prop :=
  g.i ≤ g.k ∧
    ((s.work.ph = .start ∧ 5 ≤ s.m.val ∧ s.m.val % 2 = 1 ∧ g = decompose (isprimeInit s))
      ∨ (s.work.ph = .round ∧ roundPasses s.work.prime = true
          ∧ g = { s.work.prime with i := s.work.prime.i + 1 }))

theorem isprimeNext_draw {g g' : PrimeRegs} (h : isprimeNext g = .draw g') : g' = g ∧ g.i ≤ g.k := by
  unfold isprimeNext at h
  split at h
  · cases h
  · cases h
    exact ⟨rfl, by omega⟩

/-- The first segment asks for a draw only for an odd n >= 5 (41_isprime.md R131, R136). -/
theorem isprimeStart_draw {g g' : PrimeRegs} (h : isprimeStart g = .draw g') :
    5 ≤ g.n ∧ g.n % 2 = 1 ∧ g' = decompose g ∧ g'.i ≤ g'.k := by
  unfold isprimeStart at h
  split at h
  · cases h
  · split at h
    · cases h
    · split at h
      · cases h
      · obtain ⟨rfl, hle⟩ := isprimeNext_draw h
        exact ⟨by omega, by omega, rfl, hle⟩

/-- A later segment asks for a draw only after its round has passed (41_isprime.md R133, R134). -/
theorem isprimeRound_draw {g g' : PrimeRegs} (h : isprimeRound g = .draw g') :
    roundPasses g = true ∧ g' = { g with i := g.i + 1 } ∧ g'.i ≤ g'.k := by
  unfold isprimeRound at h
  split at h
  · rename_i hp
    obtain ⟨rfl, hle⟩ := isprimeNext_draw h
    exact ⟨hp, rfl, hle⟩
  · cases h

theorem execIsprime_cases (s : State) :
    (∃ p : Bool, execIsprime s = .next (complete p.toNat p false s))
      ∨ (∃ g, DrawOk s g ∧ execIsprime s = .next (requestDraw g s)) := by
  unfold execIsprime
  cases hph : s.work.ph with
  | start =>
    cases hseg : isprimeStart (isprimeInit s) with
    | finish p => exact Or.inl ⟨p, by simp only [endSegment]⟩
    | draw g =>
      obtain ⟨h5, hodd, hg, hle⟩ := isprimeStart_draw hseg
      exact Or.inr ⟨g, ⟨hle, Or.inl ⟨hph, h5, hodd, hg⟩⟩, by simp only [endSegment]⟩
  | round =>
    cases hseg : isprimeRound s.work.prime with
    | finish p => exact Or.inl ⟨p, by simp only [endSegment]⟩
    | draw g =>
      obtain ⟨hp, hg, hle⟩ := isprimeRound_draw hseg
      exact Or.inr ⟨g, ⟨hle, Or.inr ⟨hph, hp, hg⟩⟩, by simp only [endSegment]⟩

/-- The result of `mod_inverse` is 0 where it says that no inverse exists (42_gcd_modinv.md R163). -/
theorem modInverse_noinv {a n : Nat} (h : (modInverse a n).2 = true) : (modInverse a n).1 = 0 := by
  unfold modInverse invResult at h ⊢
  split at h
  · rename_i hr
    rw [if_pos hr]
  · split at h <;> simp at h

/-- Every command's step ends in a normal completion, in the error DOMAIN, or (ISPRIME) in a draw request. -/
theorem exec_cases (i : Instr) (s : State) :
    (∃ v p n, ResultOk i v p n ∧ exec i s = .next (complete v p n s))
      ∨ (i ≠ .isprime ∧ i ≠ .gcd ∧ exec i s = .next (raiseErr .domain s))
      ∨ (i = .isprime ∧ ∃ g, DrawOk s g ∧ exec i s = .next (requestDraw g s)) := by
  cases i with
  | mulmod =>
    by_cases h : s.m.val = 0
    · exact Or.inr (Or.inl ⟨by decide, by decide, if_pos h⟩)
    · exact Or.inl ⟨_, false, false, ⟨by simp, by simp, by simp⟩, if_neg h⟩
  | powmod =>
    by_cases h : s.m.val = 0
    · exact Or.inr (Or.inl ⟨by decide, by decide, if_pos h⟩)
    · exact Or.inl ⟨_, false, false, ⟨by simp, by simp, by simp⟩, if_neg h⟩
  | isprime =>
    rcases execIsprime_cases s with ⟨p, h⟩ | ⟨g, hg, h⟩
    · exact Or.inl ⟨_, p, false, ⟨by simp, by simp, by simp⟩, h⟩
    · exact Or.inr (Or.inr ⟨rfl, g, hg, h⟩)
  | gcd => exact Or.inl ⟨_, false, false, ⟨by simp, by simp, by simp⟩, rfl⟩
  | modinv =>
    by_cases h : s.m.val < 2
    · exact Or.inr (Or.inl ⟨by decide, by decide, if_pos h⟩)
    · exact Or.inl ⟨_, false, _, ⟨by simp, fun hn => ⟨rfl, modInverse_noinv hn⟩, by simp⟩, if_neg h⟩

/-! ### The engine -/

/-- Why the engine runs command `i` in its step (70_reset_and_hazards.md R226). -/
def Runs (s : State) (i : Instr) : Prop :=
  (s.work.ph = .start ∧ decode s.cmd = .command i) ∨ (s.work.ph = .round ∧ i = .isprime)

/-- The `Advance` step runs a command or raises ILLCMD (R226, 30_encoding.md R96). -/
theorem advance_cases (s : State) :
    (∃ i, Runs s i ∧ advance s = exec i s)
      ∨ (s.work.ph = .start ∧ (∃ w, decode s.cmd = .illegal w) ∧ advance s = .next (raiseErr .illcmd s)) := by
  unfold advance advanceStart
  cases hph : s.work.ph with
  | round => exact Or.inl ⟨.isprime, Or.inr ⟨hph, rfl⟩, rfl⟩
  | start =>
    cases hd : decode s.cmd with
    | command i => exact Or.inl ⟨i, Or.inl ⟨hph, hd⟩, rfl⟩
    | illegal w => exact Or.inr ⟨rfl, ⟨w, rfl⟩, rfl⟩

/-- Everything the engine's turn can do: nothing where it has no step, otherwise a normal completion, an error completion or a
draw request. -/
theorem engineTurn_cases (s : State) :
    (s.seq ≠ .run ∧ engineTurn s = .next s)
      ∨ (s.seq = .run ∧ (∃ i v p n, Runs s i ∧ ResultOk i v p n ∧ engineTurn s = .next (complete v p n s)))
      ∨ (s.seq = .run ∧ ∃ c, engineTurn s = .next (raiseErr c s))
      ∨ (s.seq = .run ∧ Runs s .isprime ∧ ∃ g, DrawOk s g ∧ engineTurn s = .next (requestDraw g s)) := by
  unfold engineTurn
  cases hseq : s.seq with
  | idle => exact Or.inl ⟨by simp, rfl⟩
  | wait => exact Or.inl ⟨by simp, rfl⟩
  | run =>
    rcases advance_cases s with ⟨i, hi, ha⟩ | ⟨-, -, ha⟩
    · rcases exec_cases i s with ⟨v, p, n, hok, he⟩ | ⟨-, -, he⟩ | ⟨rfl, g, hg, he⟩
      · exact Or.inr (Or.inl ⟨rfl, i, v, p, n, hi, hok, ha.trans he⟩)
      · exact Or.inr (Or.inr (Or.inl ⟨rfl, _, ha.trans he⟩))
      · exact Or.inr (Or.inr (Or.inr ⟨rfl, hi, g, hg, ha.trans he⟩))
    · exact Or.inr (Or.inr (Or.inl ⟨rfl, _, ha⟩))

/-! ### The random source -/

/-- Everything an answer can do (41_isprime.md R141, R142). -/
theorem respond_cases (w : Nat) (s : State) :
    respond w s = s
      ∨ (s.rst = false ∧ s.seq = .wait ∧ s.rndBound.val ≤ rndVal s w ∧ respond w s = raiseErr .rng s)
      ∨ (s.rst = false ∧ s.seq = .wait ∧ rndVal s w < s.rndBound.val ∧ respond w s = takeAnswer (rndVal s w) s) := by
  unfold respond
  split
  · rename_i h
    split
    · rename_i hle
      exact Or.inr (Or.inl ⟨h.1, h.2, hle, rfl⟩)
    · rename_i hlt
      exact Or.inr (Or.inr ⟨h.1, h.2, by omega, rfl⟩)
  · exact Or.inl rfl

/-! ### The host bus -/

/-- Everything a write to a register word can do, dispatched by the register (20_memory.md R67 to R72). -/
theorem writeReg_cases (x : RegWord) (d : Word) (s : State) :
    writeReg x d s = s
      ∨ (s.status.busy = true ∧ (x = .cmd ∨ x = .iters ∨ ∃ y i, x = .bank y i) ∧ writeReg x d s = dropWrite s)
      ∨ (s.status.busy = false ∧ x = .cmd ∧ writeReg x d s = accept d s)
      ∨ (x = .status ∧ writeReg x d s = writeStatus d s)
      ∨ (x = .ctrl ∧ writeReg x d s = writeCtrl d s)
      ∨ (s.status.busy = false ∧ x = .iters ∧ writeReg x d s = { s with iters := d })
      ∨ (s.status.busy = false ∧ ∃ y i, x = .bank y i ∧ writeReg x d s = s.setBank y ((s.bank y).setWord i d)) := by
  cases hb : s.status.busy <;> cases x <;> simp [writeReg, writeCmd, writeIters, writeBank, hb]

/-- Everything a host access can do: nothing but the answer `error`, nothing but the data of a read, or a write. -/
theorem busAccess_cases (acc : BusAccess) (s : State) :
    ((s.rst = true ∨ accessTarget s.nw acc = none) ∧ busAccess acc s = answerHost .error s)
      ∨ (s.rst = false ∧ ∃ x, accessTarget s.nw acc = some x ∧
          ((acc.op = .read ∧ busAccess acc s = answerHost (.okData (readReg s x)) s)
            ∨ ∃ d, acc.op = .write d ∧ busAccess acc s = answerHost .ok (writeReg x d s))) := by
  unfold busAccess
  cases hr : s.rst with
  | true => exact Or.inl ⟨Or.inl rfl, rfl⟩
  | false =>
    cases ht : accessTarget s.nw acc with
    | none => exact Or.inl ⟨Or.inr rfl, rfl⟩
    | some x =>
      refine Or.inr ⟨rfl, x, rfl, ?_⟩
      cases ho : acc.op with
      | read => exact Or.inl ⟨rfl, by simp [accessReg]⟩
      | write d => exact Or.inr ⟨d, rfl, by simp [accessReg]⟩

/-! ### The step -/

/-- A step is the engine's turn where the schedule is empty, and otherwise the next agent's step. -/
theorem step_cases (s : State) :
    (s.schedule = [] ∧ step s = engineTurn s)
      ∨ ∃ ev rest, s.schedule = ev :: rest ∧ step s = perform ev { s with schedule := rest } := by
  unfold step
  cases hs : s.schedule with
  | nil => exact Or.inl ⟨rfl, rfl⟩
  | cons ev rest => exact Or.inr ⟨ev, rest, rfl, rfl⟩

end Sys2Proof.Machine
end

