-- ==== Sys2Proof/Laws/Bus.lean ====
section
/-! SUPPORT. The host bus: alignment and the address map as arithmetic (20_memory.md R61, R65), and what a step on a bus event
is (R66, R67). -/

namespace Sys2Proof.Machine

/-- R65 as arithmetic: `addr[1:0] = 0` says that 4 divides the offset. -/
theorem addr_aligned (a : BitVec 13) : (a.extractLsb' 0 2 == 0#2) = decide (a.toNat % 4 = 0) := by
  have h : a.extractLsb' 0 2 = 0#2 ↔ a.toNat % 4 = 0 := by
    rw [← BitVec.toNat_inj]
    simp [BitVec.extractLsb'_toNat]
  by_cases hz : a.toNat % 4 = 0 <;> simp [h, hz]

/-- An aligned access of one word reaches the register word of its offset. -/
theorem accessTarget_aligned (nw : Nat) (a : BitVec 13) (op : BusOp) (h : a.toNat % 4 = 0) :
    accessTarget nw ⟨a, 4, op⟩ = regAt nw a.toNat := by
  simp [accessTarget, BusAccess.sizeOk, BusAccess.alignOk, addr_aligned, h]

/-- Word i of a window is the word at base + 4 * i (R61). -/
theorem windowIndex_word {nw base i : Nat} (h : i < nw) : windowIndex nw base (base + 4 * i) = some i := by
  unfold windowIndex
  rw [if_pos (by omega)]
  congr 1
  omega

/-- An index of a window is the offset's distance from the base in words, inside the implemented part (R61). -/
theorem windowIndex_some {nw base off i : Nat} (h : windowIndex nw base off = some i) :
    base ≤ off ∧ off < base + 4 * nw ∧ i = (off - base) / 4 := by
  unfold windowIndex at h
  split at h
  · rename_i hin
    cases h
    exact ⟨hin.1, hin.2, rfl⟩
  · cases h

/-- The implemented words of the operand banks (R61). -/
theorem regAt_bank {nw i : Nat} (x : Bank) (hnw : nw ≤ 256) (hi : i < nw) :
    regAt nw (bankBase x + 4 * i) = some (.bank x i) := by
  cases x
  · show regAt nw (0x0400 + 4 * i) = some (.bank .A i)
    unfold regAt
    rw [windowIndex_word hi]
    repeat (first | rw [if_neg (by omega)] | rw [if_pos (by omega)])
    rfl
  · show regAt nw (0x0800 + 4 * i) = some (.bank .B i)
    unfold regAt
    rw [windowIndex_word hi]
    repeat (first | rw [if_neg (by omega)] | rw [if_pos (by omega)])
    rfl
  · show regAt nw (0x0C00 + 4 * i) = some (.bank .E i)
    unfold regAt
    rw [windowIndex_word hi]
    repeat (first | rw [if_neg (by omega)] | rw [if_pos (by omega)])
    rfl
  · show regAt nw (0x1000 + 4 * i) = some (.bank .M i)
    unfold regAt
    rw [windowIndex_word hi]
    repeat (first | rw [if_neg (by omega)] | rw [if_pos (by omega)])
    rfl

/-- The implemented words of R (R61). -/
theorem regAt_result {nw i : Nat} (hnw : nw ≤ 256) (hi : i < nw) : regAt nw (resultBase + 4 * i) = some (.result i) := by
  show regAt nw (0x1400 + 4 * i) = some (.result i)
  unfold regAt
  rw [windowIndex_word hi]
  repeat (first | rw [if_neg (by omega)] | rw [if_pos (by omega)])
  rfl

/-- A step on a bus event is the access on the state with the event taken off the schedule. -/
theorem step_bus {s : State} {acc : BusAccess} {rest : List Event} (h : s.schedule = .bus acc :: rest) :
    step s = .next (busAccess acc { s with schedule := rest }) := by
  simp [step, h, perform]

/-- A step on an aligned write to an implemented word (R67). -/
theorem step_bus_write {s : State} {a : BitVec 13} {d : Word} {x : RegWord} {rest : List Event} (hr : s.rst = false)
    (ha : a.toNat % 4 = 0) (hx : regAt s.nw a.toNat = some x) (h : s.schedule = .bus ⟨a, 4, .write d⟩ :: rest) :
    step s = .next (answerHost .ok (writeReg x d { s with schedule := rest })) := by
  rw [step_bus h]
  simp [busAccess, hr, accessTarget_aligned, ha, hx, accessReg]

/-- The statement `ACK` (30_encoding.md R101) is the acknowledge of 60_exceptions.md R189. -/
theorem busAccesses_ack (nw : Nat) (s : State) (hr : s.rst = false) :
    busAccesses (expandStmt nw .ack) s = answerHost .ok (acknowledge s) := by
  simp [expandStmt, busAccesses, busAccess, hr, busWrite, accessTarget_aligned, regAt, accessReg, writeReg, writeStatus,
    acknowledge]

end Sys2Proof.Machine
end

