-- ==== Sys2Proof/Laws/PerInstr.lean ====
section
/-! SUPPORT. Families of statements made per instruction. ZeroField: every command is well-formed and its command word has the
ZERO field 0 (30_encoding.md R90), so no command is encoded as a word that R92 calls illegal for that field. -/

/-- 30_encoding.md R90: bits 31:8 of the command word are 0 and bits 7:0 are the opcode. -/
def Sys2Proof.Laws.ZeroField.Statement (i : Sys2Proof.Instr) : Prop :=
  i.wellFormed = true ∧ Sys2Proof.cmdZero (Sys2Proof.encode i) = 0#24
    ∧ Sys2Proof.cmdOp (Sys2Proof.encode i) = Sys2Proof.opcode i

theorem Sys2Proof.Laws.ZeroField.mulmod : Sys2Proof.Laws.ZeroField.Statement .mulmod := ⟨rfl, by decide, by decide⟩

theorem Sys2Proof.Laws.ZeroField.powmod : Sys2Proof.Laws.ZeroField.Statement .powmod := ⟨rfl, by decide, by decide⟩

theorem Sys2Proof.Laws.ZeroField.isprime : Sys2Proof.Laws.ZeroField.Statement .isprime := ⟨rfl, by decide, by decide⟩

theorem Sys2Proof.Laws.ZeroField.gcd : Sys2Proof.Laws.ZeroField.Statement .gcd := ⟨rfl, by decide, by decide⟩

theorem Sys2Proof.Laws.ZeroField.modinv : Sys2Proof.Laws.ZeroField.Statement .modinv := ⟨rfl, by decide, by decide⟩
end

