-- ==== Sys2Proof/Laws/Step.lean ====
section
/-! SUPPORT. Everything one step can do, as one inductive relation: a statement about every step is a case analysis of `Move`.
`s` is the state before the step, `u` the same state with the schedule the step leaves. -/

namespace Sys2Proof.Machine

/-- The moves of the machine, each with its guard (70_reset_and_hazards.md R226, 41_isprime.md R141, 20_memory.md R66 to R72,
70_reset_and_hazards.md R210). -/
inductive Move (s u : State) : State → Prop
  | stay : Move s u u
  | err (c : ErrorCause) : s.seq = .run → Move s u (raiseErr c u)
  | done (i : Instr) (v : Nat) (p n : Bool) : s.seq = .run → Runs s i → ResultOk i v p n → Move s u (complete v p n u)
  | draw (g : PrimeRegs) : s.seq = .run → Runs s .isprime → DrawOk s g → Move s u (requestDraw g u)
  | rng (w : Nat) (rest : List Event) : s.schedule = .respond w :: rest → s.seq = .wait → Move s u (raiseErr .rng u)
  | take (w : Nat) (rest : List Event) : s.schedule = .respond w :: rest → s.rst = false → s.seq = .wait →
      rndVal s w < s.rndBound.val → Move s u (takeAnswer (rndVal s w) u)
  | answered (a : BusAnswer) (acc : BusAccess) (rest : List Event) : s.schedule = .bus acc :: rest →
      Move s u (answerHost a u)
  | drop (x : RegWord) (acc : BusAccess) (d : Word) (rest : List Event) : s.schedule = .bus acc :: rest → s.rst = false →
      acc.op = .write d → accessTarget s.nw acc = some x → s.status.busy = true →
      (x = .cmd ∨ x = .iters ∨ ∃ y i, x = .bank y i) → Move s u (answerHost .ok (dropWrite u))
  | accept (acc : BusAccess) (d : Word) (rest : List Event) : s.schedule = .bus acc :: rest → s.rst = false →
      acc.op = .write d → accessTarget s.nw acc = some .cmd → s.status.busy = false →
      Move s u (answerHost .ok (accept d u))
  | status (acc : BusAccess) (d : Word) (rest : List Event) : s.schedule = .bus acc :: rest → s.rst = false →
      acc.op = .write d → accessTarget s.nw acc = some .status → Move s u (answerHost .ok (writeStatus d u))
  | ctrl (acc : BusAccess) (d : Word) (rest : List Event) : s.schedule = .bus acc :: rest → s.rst = false →
      acc.op = .write d → accessTarget s.nw acc = some .ctrl → Move s u (answerHost .ok (writeCtrl d u))
  | iters (acc : BusAccess) (d : Word) (rest : List Event) : s.schedule = .bus acc :: rest → s.rst = false →
      acc.op = .write d → accessTarget s.nw acc = some .iters → s.status.busy = false →
      Move s u (answerHost .ok { u with iters := d })
  | bank (acc : BusAccess) (d : Word) (rest : List Event) (y : Bank) (i : Nat) : s.schedule = .bus acc :: rest →
      s.rst = false → acc.op = .write d → accessTarget s.nw acc = some (.bank y i) → s.status.busy = false →
      Move s u (answerHost .ok (u.setBank y ((u.bank y).setWord i d)))
  | rstOn (rest : List Event) : s.schedule = .rst true :: rest → Move s u (assertReset u)
  | rstOff (rest : List Event) : s.schedule = .rst false :: rest → Move s u (releaseReset u)

theorem move_of_engineTurn {s t : State} {l : List Event} (h : engineTurn { s with schedule := l } = .next t) :
    Move s { s with schedule := l } t := by
  rcases engineTurn_cases { s with schedule := l } with
    ⟨-, h'⟩ | ⟨hs, i, v, p, n, hr, ho, h'⟩ | ⟨hs, c, h'⟩ | ⟨hs, hr, g, hg, h'⟩ <;> rw [h'] at h <;> cases h
  · exact .stay
  · exact .done i v p n hs hr ho
  · exact .err c hs
  · exact .draw g hs hr hg

theorem move_of_busAccess {s : State} {acc : BusAccess} {rest : List Event} (hs : s.schedule = .bus acc :: rest) :
    Move s { s with schedule := rest } (busAccess acc { s with schedule := rest }) := by
  rcases busAccess_cases acc { s with schedule := rest } with ⟨-, h⟩ | ⟨hr, x, ht, ⟨-, h⟩ | ⟨d, ho, h⟩⟩ <;> rw [h]
  · exact .answered _ acc rest hs
  · exact .answered _ acc rest hs
  · rcases writeReg_cases x d { s with schedule := rest } with
      h | ⟨hb, hx, h⟩ | ⟨hb, rfl, h⟩ | ⟨rfl, h⟩ | ⟨rfl, h⟩ | ⟨hb, rfl, h⟩ | ⟨hb, y, i, rfl, h⟩ <;> rw [h]
    · exact .answered _ acc rest hs
    · exact .drop x acc d rest hs hr ho ht hb hx
    · exact .accept acc d rest hs hr ho ht hb
    · exact .status acc d rest hs hr ho ht
    · exact .ctrl acc d rest hs hr ho ht
    · exact .iters acc d rest hs hr ho ht hb
    · exact .bank acc d rest y i hs hr ho ht hb

/-- Every step is a move on the state with the schedule the step leaves. -/
theorem step_move {s t : State} (h : step s = .next t) : ∃ l, Move s { s with schedule := l } t := by
  rcases step_cases s with ⟨-, h'⟩ | ⟨ev, rest, hs, h'⟩
  · rw [h'] at h
    exact ⟨s.schedule, move_of_engineTurn (l := s.schedule) h⟩
  · refine ⟨rest, ?_⟩
    rw [h'] at h
    cases ev with
    | advance => exact move_of_engineTurn h
    | bus acc =>
      cases h
      exact move_of_busAccess hs
    | rst b =>
      cases h
      cases b
      · exact .rstOff rest hs
      · exact .rstOn rest hs
    | respond w =>
      cases h
      rcases respond_cases w { s with schedule := rest } with h | ⟨-, h2, -, h⟩ | ⟨h1, h2, h3, h⟩ <;> rw [h]
      · exact .stay
      · exact .rng w rest hs h2
      · exact .take w rest hs h1 h2 h3

end Sys2Proof.Machine
end

