-- ==== Sys2Proof/Tests/Slice0.lean ====
section
/-! SUPPORT. Tests. Expected values come from spec/95_test_vectors.md and the rules it names, never from the model. First the
smoke tests of well-formedness and decoding, then the vectors, then a witness for each statement with hypotheses: a concrete state
that meets them, clause by clause, at the ends of the ranges. -/

namespace Sys2Proof.Tests

open Sys2Proof Sys2Proof.Machine

/-! ### Small states -/

/-- Idle, with the operands loaded. -/
def idleAt (nw a b e m : Nat) (k : Word) : State :=
  { State.resetOf nw with
    a := Operand.ofNat nw a, b := Operand.ofNat nw b, e := Operand.ofNat nw e, m := Operand.ofNat nw m, iters := k }

/-- Just after the accept of the word `w`, the engine's step next. -/
def busyAt (nw : Nat) (w : Word) (a b e m : Nat) (k : Word) : State :=
  { idleAt nw a b e m k with
    cmd := w, status := { Status.reset with busy := true }, seq := .run, schedule := [.advance] }

/-- ISPRIME of n in round i, waiting for the draw: n - 1 = 2^s * r. -/
def waitAt (n s r i : Nat) (k : Word) : State :=
  { idleAt 1 0 0 0 n k with
    cmd := 0x00000003#32
    status := { Status.reset with busy := true, rndwait := true }
    seq := .wait
    rndBound := Operand.ofNat 1 (n - 3)
    work :=
      { Work.reset with
        ph := .round
        prime := { n := n, k := k.toNat, s := s, r := r, i := i, wdraw := 0, y := 0, j := 0, a := 0 } } }

/-- The same round after the answer w, the engine's step next. -/
def roundAt (n s r i : Nat) (k : Word) (w : Nat) : State :=
  { takeAnswer w (waitAt n s r i k) with schedule := [.advance] }

/-- The same state with another schedule. -/
def withSchedule (l : List Event) (s : State) : State := { s with schedule := l }

/-- The same state with `rst` asserted. -/
def underReset (s : State) : State := { s with rst := true }

/-- R and STATUS after a step. -/
def seen : Host.Outcome State Fault Refusal → Option (Nat × Word)
  | .next t => some (t.r.val, t.status.word)
  | .fault _ => none
  | .refused _ => none

/-- The bus answer after a step. -/
def answered : Host.Outcome State Fault Refusal → Option BusAnswer
  | .next t => t.answer
  | .fault _ => none
  | .refused _ => none

/-! ### Well-formedness: each check refuses an ill-formed term -/

theorem test_width_limits : legalWidth 0 = false ∧ legalWidth 1 = true ∧ legalWidth 256 = true ∧ legalWidth 257 = false := by
  decide

theorem test_access_size_refused :
    (BusAccess.mk 0x0400#13 2 .read).wellFormed 1 = false ∧ (BusAccess.mk 0x0400#13 4 .read).wellFormed 1 = true := by decide

theorem test_access_alignment_refused : (busWrite 0x0402#13 1#32).wellFormed 1 = false := by decide

theorem test_access_offset_refused :
    (busRead 0x0404#13).wellFormed 1 = false ∧ (busRead 0x0404#13).wellFormed 2 = true
      ∧ (busRead 0x0014#13).wellFormed 1 = false ∧ (busRead 0x1FFC#13).wellFormed 256 = false := by decide

theorem test_load_value_refused :
    (HostStmt.load .A (2 ^ 32)).wellFormed 1 = false ∧ (HostStmt.load .A (2 ^ 32 - 1)).wellFormed 1 = true := by decide

theorem test_statement_offset_refused :
    (HostStmt.wr 0x0402#13 1#32).wellFormed 1 = false ∧ (HostStmt.rd 0x1800#13).wellFormed 1 = false := by decide

/-! ### Decoding: the words written out from 30_encoding.md R90, R91 (ZERO in bits 31:8, OP in bits 7:0) -/

theorem test_decode_mulmod : decode 0b00000000000000000000000000000001#32 = .command .mulmod := by decide

theorem test_decode_powmod : decode 0b00000000000000000000000000000010#32 = .command .powmod := by decide

theorem test_decode_isprime : decode 0b00000000000000000000000000000011#32 = .command .isprime := by decide

theorem test_decode_gcd : decode 0b00000000000000000000000000000100#32 = .command .gcd := by decide

theorem test_decode_modinv : decode 0b00000000000000000000000000000101#32 = .command .modinv := by decide

/-- 30_encoding.md R92: a word with OP = POWMOD and ZERO not 0 is illegal. -/
theorem test_decode_zero_field : decode 0b00000000000000000000000100000010#32 = .illegal .zeroFieldNotZero := by decide

theorem test_table_words : decodeTableWord 32 4 = some .gcd ∧ decodeTableWord 32 6 = none := by decide

/-! ### The commands (95_test_vectors.md, part 2) -/

theorem test_mulmod_two_words :
    seen (step (busyAt 2 0x00000001#32 0xFFFFFFFFFFFFFFFF 0xFFFFFFFFFFFFFFFE 0 0xFFFFFFFFFFFFFFC5 0#32))
      = some (3306, 0x002#32) := by decide

theorem test_mulmod_maximum_product :
    seen (step (busyAt 1 0x00000001#32 0xFFFFFFFF 0xFFFFFFFF 0 0xFFFFFFFE 0#32)) = some (1, 0x002#32) := by decide

/-- The rule's example with its trace. -/
theorem test_powmod_example :
    seen (step (busyAt 1 0x00000002#32 4 0 13 497 0#32)) = some (445, 0x002#32)
      ∧ powPass 497 ⟨1, 4, 13⟩ = ⟨4, 16, 6⟩ ∧ powPass 497 ⟨4, 16, 6⟩ = ⟨4, 256, 3⟩
      ∧ powPass 497 ⟨4, 256, 3⟩ = ⟨30, 429, 1⟩ ∧ powPass 497 ⟨30, 429, 1⟩ = ⟨445, 151, 0⟩ := by decide

/-- M = 1: the literal algorithm gives 1 for E = 0 and 0 for E > 0 (93 U3). -/
theorem test_powmod_modulus_one :
    seen (step (busyAt 1 0x00000002#32 5 0 0 1 0#32)) = some (1, 0x002#32)
      ∧ seen (step (busyAt 1 0x00000002#32 5 0 3 1 0#32)) = some (0, 0x002#32) := by decide

/-- M = 97, ITERS = 2: after the first `Advance` STATUS = 0x041; round 2 with the answer 3 completes with 1, 0x00A. -/
theorem test_isprime_segments :
    seen (step (busyAt 1 0x00000003#32 0 0 0 97 2#32)) = some (0, 0x041#32)
      ∧ seen (step (roundAt 97 5 3 2 2#32 3)) = some (1, 0x00A#32) := by decide

/-- 65 with a = 14: y becomes 1; 65 with a = 8: a liar; 561 with a = 2: becomes 1 on the last squaring; 9 with a = 2: exhausted. -/
theorem test_isprime_rounds :
    seen (step (roundAt 65 6 1 1 1#32 12)) = some (0, 0x002#32)
      ∧ seen (step (roundAt 65 6 1 1 1#32 6)) = some (1, 0x00A#32)
      ∧ seen (step (roundAt 561 4 35 1 1#32 0)) = some (0, 0x002#32)
      ∧ seen (step (roundAt 9 3 1 1 1#32 0)) = some (0, 0x002#32) := by decide

/-- The rule's example with its passes. -/
theorem test_gcd_example :
    seen (step (busyAt 1 0x00000004#32 48 18 0 0 0#32)) = some (6, 0x002#32)
      ∧ gcdPass ⟨48, 18⟩ = ⟨18, 12⟩ ∧ gcdPass ⟨18, 12⟩ = ⟨12, 6⟩ ∧ gcdPass ⟨12, 6⟩ = ⟨6, 0⟩ := by decide

theorem test_gcd_zeros :
    seen (step (busyAt 1 0x00000004#32 0 0 0 0 0#32)) = some (0, 0x002#32)
      ∧ seen (step (busyAt 1 0x00000004#32 0 17 0 0 0#32)) = some (17, 0x002#32) := by decide

/-- The rule's example with its last pass, and the two-word vector. -/
theorem test_modinv_examples :
    seen (step (busyAt 1 0x00000005#32 17 0 0 3120 0#32)) = some (2753, 0x002#32)
      ∧ invPass ⟨8, 1, 184, -367, 1⟩ = ⟨1, 0, -367, 3120, 8⟩
      ∧ seen (step (busyAt 2 0x00000005#32 65537 0 0 13614849456 0#32)) = some (9174136241, 0x002#32) := by decide

/-- No inverse (NOINV), and the domain error at M = 1. -/
theorem test_modinv_sentinel :
    seen (step (busyAt 1 0x00000005#32 6 0 0 9 0#32)) = some (0, 0x012#32)
      ∧ seen (step (busyAt 1 0x00000005#32 1 0 0 1 0#32)) = some (0, 0x206#32) := by decide

/-! ### Errors, bus, flags, reset (95_test_vectors.md, part 2 and program P4) -/

/-- The zero word, and priority: an illegal word with M = 0 reports ILLCMD. -/
theorem test_illegal_words :
    seen (step (busyAt 1 0x00000000#32 5 0 3 7 0#32)) = some (0, 0x106#32)
      ∧ seen (step (busyAt 1 0x00000102#32 5 0 3 0 0#32)) = some (0, 0x106#32) := by decide

/-- The bound of M = 97 is 94: the answer 94 is an RNG error, 93 is kept. -/
theorem test_answer_range :
    seen (step (withSchedule [.respond 94] (waitAt 97 5 3 1 1#32))) = some (0, 0x306#32)
      ∧ seen (step (withSchedule [.respond 93] (waitAt 97 5 3 1 1#32))) = some (0, 0x001#32) := by decide

/-- Steps 1, 4, 5 and 7 of the bus table. -/
theorem test_bus_answers :
    answered (step (withSchedule [.bus (busRead 0x0010#13)] (State.resetOf 1))) = some (.okData 0x00000020#32)
      ∧ answered (step (withSchedule [.bus (busRead 0x0014#13)] (State.resetOf 1))) = some .error
      ∧ answered (step (withSchedule [.bus (busRead 0x0404#13)] (State.resetOf 1))) = some .error
      ∧ answered (step (withSchedule [.bus (busRead 0x0404#13)] (State.resetOf 2))) = some (.okData 0#32)
      ∧ answered (step (withSchedule [.bus (busWrite 0x0402#13 1#32)] (State.resetOf 1))) = some .error := by decide

/-- A write dropped while waiting sets HAZ (0x061) and leaves M. -/
theorem test_dropped_write :
    seen (step (withSchedule [.bus (busWrite 0x1000#13 9#32)] (waitAt 97 5 3 1 1#32))) = some (0, 0x061#32)
      ∧ (busAccess (busWrite 0x1000#13 9#32) (waitAt 97 5 3 1 1#32)).m.val = 97 := by decide

/-- Reset during a command: STATUS = 0, M = 0, `rnd_req` = 0; under reset the bus answers `error`. -/
theorem test_reset_during_wait :
    (assertReset (waitAt 97 5 3 1 1#32)).status.word = 0#32 ∧ (assertReset (waitAt 97 5 3 1 1#32)).m.val = 0
      ∧ (assertReset (waitAt 97 5 3 1 1#32)).rndReq = false
      ∧ (busAccess (busRead 0x0004#13) (assertReset (waitAt 97 5 3 1 1#32))).answer = some .error := by decide

/-! ### Witnesses: the engine's step -/

theorem witness_step_runs_the_decoded_command :
    (busyAt 1 0x00000004#32 48 18 0 0 0#32).seq = .run ∧ (busyAt 1 0x00000004#32 48 18 0 0 0#32).work.ph = .start
      ∧ decode (busyAt 1 0x00000004#32 48 18 0 0 0#32).cmd = .command .gcd
      ∧ (busyAt 1 0x00000004#32 48 18 0 0 0#32).schedule = .advance :: []
      ∧ (withSchedule [] (busyAt 1 0x00000004#32 48 18 0 0 0#32)).schedule = [] := by decide

theorem witness_advance_is_enabled_in_run :
    (withSchedule [.advance] (State.resetOf 1)).schedule = .advance :: []
      ∧ (withSchedule [.advance] (State.resetOf 1)).seq ≠ .run
      ∧ (withSchedule [.advance] (waitAt 97 5 3 1 1#32)).seq ≠ .run
      ∧ (roundAt 97 5 3 1 1#32 93).schedule = .advance :: [] ∧ (roundAt 97 5 3 1 1#32 93).seq = .run
      ∧ (roundAt 97 5 3 1 1#32 93).work.ph = .round := by decide

theorem witness_placed_word :
    (5 : Nat) < 2 ^ 32 ∧ decodeTableWord 32 5 = some .modinv ∧ decodeTableWord 32 1 = some .mulmod := by decide

/-- One illegal word for each clause, at the ends of the range of OP. -/
theorem witness_illegal_word :
    (busyAt 1 0x00000102#32 5 0 3 0 0#32).schedule = .advance :: [] ∧ (busyAt 1 0x00000102#32 5 0 3 0 0#32).seq = .run
      ∧ (busyAt 1 0x00000102#32 5 0 3 0 0#32).work.ph = .start
      ∧ (busyAt 1 0x00000102#32 5 0 3 0 0#32).cmd.extractLsb' 8 24 ≠ 0#24
      ∧ (busyAt 1 0x00000000#32 5 0 3 0 0#32).cmd.extractLsb' 0 8 = 0x00#8
      ∧ 0x06#8 ≤ (busyAt 1 0x00000006#32 5 0 3 0 0#32).cmd.extractLsb' 0 8
      ∧ 0x06#8 ≤ (busyAt 1 0x000000FF#32 5 0 3 0 0#32).cmd.extractLsb' 0 8
      ∧ (busyAt 1 0x00000102#32 5 0 3 0 0#32).status.haz = false := by decide

/-! ### Witnesses: the commands -/

theorem witness_mulmod :
    (busyAt 1 0x00000001#32 0xFFFFFFFF 0xFFFFFFFF 0 0xFFFFFFFE 0#32).m.val ≠ 0
      ∧ (busyAt 1 0x00000001#32 0xFFFFFFFF 0xFFFFFFFF 0 0xFFFFFFFE 0#32).WidthOk
      ∧ (busyAt 1 0x00000001#32 5 6 0 1 0#32).m.val ≠ 0 := by decide

theorem witness_powmod :
    (busyAt 1 0x00000002#32 5 0 0 1 0#32).m.val ≠ 0 ∧ (busyAt 1 0x00000002#32 5 0 0 1 0#32).WidthOk
      ∧ (busyAt 1 0x00000002#32 4 0 13 497 0#32).m.val ≠ 0 ∧ (busyAt 1 0x00000002#32 4 0 13 497 0#32).e.val ≠ 0 := by decide

theorem witness_closed_form : (1 : Nat) ≤ 1 ∧ (0 : Nat) = 0 ∧ (0 : Nat) < 1 ∧ (1 : Nat) < 2 := by decide

theorem witness_gcd : (busyAt 1 0x00000004#32 48 18 0 0 0#32).WidthOk := by decide

theorem witness_modinv_coprime :
    2 ≤ (busyAt 1 0x00000005#32 5 0 0 2 0#32).m.val
      ∧ Nat.gcd (busyAt 1 0x00000005#32 5 0 0 2 0#32).a.val (busyAt 1 0x00000005#32 5 0 0 2 0#32).m.val = 1
      ∧ (busyAt 1 0x00000005#32 5 0 0 2 0#32).WidthOk := by decide

theorem witness_modinv_sentinel :
    (busyAt 1 0x00000005#32 6 0 0 9 0#32).WidthOk ∧ 2 ≤ (busyAt 1 0x00000005#32 6 0 0 9 0#32).m.val
      ∧ (busyAt 1 0x00000005#32 0 0 0 2 0#32).WidthOk ∧ 2 ≤ (busyAt 1 0x00000005#32 0 0 0 2 0#32).m.val := by decide

/-- The four passes of A = 17, M = 3120; and no pass of a = 0, n = 1. -/
theorem witness_inverse_loop :
    (1 : Nat) ≤ 3120 ∧ (∀ j, j < 4 → (invPass^[j] { r := 3120, r' := 17, t := 0, t' := 1, q := 0 }).r' ≠ 0)
      ∧ (1 : Nat) ≤ 1 ∧ (∀ j, j < 0 → (invPass^[j] { r := 1, r' := 0, t := 0, t' := 1, q := 0 }).r' ≠ 0) := by decide

theorem witness_domain :
    (busyAt 1 0x00000001#32 9 9 0 0 0#32).m.val = 0 ∧ (busyAt 1 0x00000001#32 9 9 0 0 0#32).status.haz = false
      ∧ (busyAt 1 0x00000005#32 1 0 0 1 0#32).m.val < 2
      ∧ (busyAt 1 0x00000001#32 9 9 0 1 0#32).m.val ≠ 0 ∧ 2 ≤ (busyAt 1 0x00000005#32 1 0 0 2 0#32).m.val := by decide

theorem witness_domain_outcomes :
    (∃ t, exec .mulmod (busyAt 1 0x00000001#32 9 9 0 1 0#32) = .next t)
      ∧ (∃ t, exec .powmod (busyAt 1 0x00000002#32 9 9 0 1 0#32) = .next t)
      ∧ (∃ t, exec .modinv (busyAt 1 0x00000005#32 1 0 0 2 0#32) = .next t)
      ∧ (∃ t, exec .gcd (busyAt 1 0x00000004#32 9 9 0 0 0#32) = .next t)
      ∧ ∃ t, exec .isprime (busyAt 1 0x00000003#32 0 0 0 97 1#32) = .next t :=
  ⟨⟨_, rfl⟩, ⟨_, rfl⟩, ⟨_, rfl⟩, ⟨_, rfl⟩, ⟨_, rfl⟩⟩

theorem witness_isprime_edges :
    (busyAt 1 0x00000003#32 0 0 0 0 0#32).work.ph = .start ∧ (busyAt 1 0x00000003#32 0 0 0 0 0#32).m.val < 2
      ∧ (busyAt 1 0x00000003#32 0 0 0 1 0#32).m.val < 2 ∧ (busyAt 1 0x00000003#32 0 0 0 2 0#32).m.val = 2
      ∧ (busyAt 1 0x00000003#32 0 0 0 3 0#32).m.val = 3 ∧ 4 ≤ (busyAt 1 0x00000003#32 0 0 0 4 0#32).m.val
      ∧ (busyAt 1 0x00000003#32 0 0 0 4 0#32).m.val % 2 = 0
      ∧ (busyAt 1 0x00000003#32 0 0 0 0xFFFFFFFE 0#32).m.val % 2 = 0 := by decide

theorem witness_isprime_without_rounds :
    (busyAt 1 0x00000003#32 0 0 0 5 0#32).work.ph = .start ∧ (busyAt 1 0x00000003#32 0 0 0 5 0#32).iters = 0#32
      ∧ 5 ≤ (busyAt 1 0x00000003#32 0 0 0 5 0#32).m.val ∧ (busyAt 1 0x00000003#32 0 0 0 5 0#32).m.val % 2 = 1
      ∧ (busyAt 1 0x00000003#32 0 0 0 5 0#32).WidthOk ∧ (busyAt 1 0x00000003#32 0 0 0 1 0#32).m.val < 2
      ∧ 4 ≤ (busyAt 1 0x00000003#32 0 0 0 4 0#32).m.val ∧ (busyAt 1 0x00000003#32 0 0 0 3 0#32).m.val = 3 := by decide

theorem witness_isprime_first_draw :
    (busyAt 1 0x00000003#32 0 0 0 5 1#32).work.ph = .start ∧ (busyAt 1 0x00000003#32 0 0 0 5 1#32).iters ≠ 0#32
      ∧ 5 ≤ (busyAt 1 0x00000003#32 0 0 0 5 1#32).m.val ∧ (busyAt 1 0x00000003#32 0 0 0 5 1#32).m.val % 2 = 1 := by decide

/-- A round that fails (65 with a = 14), the last round that passes, and a round that passes before the last. -/
theorem witness_isprime_round :
    (roundAt 65 6 1 1 1#32 12).RoundOk ∧ witnessPasses 65 14 = false
      ∧ (roundAt 97 5 3 2 2#32 3).RoundOk ∧ witnessPasses 97 5 = true
      ∧ (roundAt 97 5 3 2 2#32 3).work.prime.i = (roundAt 97 5 3 2 2#32 3).work.prime.k
      ∧ (roundAt 97 5 3 1 2#32 0).RoundOk ∧ witnessPasses 97 2 = true
      ∧ (roundAt 97 5 3 1 2#32 0).work.prime.i < (roundAt 97 5 3 1 2#32 0).work.prime.k := by decide

/-- ISPRIME of 97 with the answers 0 and 3: two draws (95_test_vectors.md). -/
theorem witness_isprime_run :
    (withSchedule (drawSchedule [0, 3]) (busyAt 1 0x00000003#32 0 0 0 97 2#32)).WidthOk
      ∧ (withSchedule (drawSchedule [0, 3]) (busyAt 1 0x00000003#32 0 0 0 97 2#32)).rst = false
      ∧ (withSchedule (drawSchedule [0, 3]) (busyAt 1 0x00000003#32 0 0 0 97 2#32)).seq = .run
      ∧ (withSchedule (drawSchedule [0, 3]) (busyAt 1 0x00000003#32 0 0 0 97 2#32)).work.ph = .start
      ∧ (withSchedule (drawSchedule [0, 3]) (busyAt 1 0x00000003#32 0 0 0 97 2#32)).cmd = encode .isprime
      ∧ (2#32).toNat ≤ [0, 3].length ∧ (∀ w ∈ [0, 3], w < 97 - 3) ∧ drawCount 97 2 [0, 3] = 2
      ∧ (withSchedule (drawSchedule [0, 3]) (busyAt 1 0x00000003#32 0 0 0 97 2#32)).schedule
        = drawSchedule ([0, 3].take (drawCount 97 2 [0, 3])) ++ [] := by decide

/-- 2047 with the answers 1 and 0: composite after one draw, the second answer not used. -/
theorem witness_isprime_run_composite :
    drawCount 2047 2 [1, 0] = 1 ∧ isPrime 2047 2 [1, 0] = false
      ∧ (withSchedule (drawSchedule [1]) (busyAt 1 0x00000003#32 0 0 0 2047 2#32)).schedule
        = drawSchedule ([1, 0].take (drawCount 2047 2 [1, 0])) ++ [] := by decide

theorem witness_primes :
    Nat.Prime 97 ∧ (5 ≤ 97 → ∀ w ∈ [0, 93], w < 97 - 3) ∧ Nat.Prime 5 ∧ (5 ≤ 5 → ∀ w ∈ [0, 1], w < 5 - 3) ∧ Nat.Prime 2 :=
  ⟨by norm_num, by decide, by norm_num, by decide, by norm_num⟩

theorem witness_four_commands :
    (Instr.gcd ≠ .isprime) ∧ (withSchedule [.bus ⟨0x0000#13, 4, .write (encode .gcd)⟩, .advance] (idleAt 1 48 18 0 0 0#32)).rst = false
      ∧ (withSchedule [.bus ⟨0x0000#13, 4, .write (encode .gcd)⟩, .advance] (idleAt 1 48 18 0 0 0#32)).status.busy = false
      ∧ (withSchedule [.bus ⟨0x0000#13, 4, .write (encode .gcd)⟩, .advance] (idleAt 1 48 18 0 0 0#32)).schedule
        = .bus ⟨0x0000#13, 4, .write (encode .gcd)⟩ :: .advance :: [] := by decide

/-- A completion, and a draw request. -/
theorem witness_commands_frame :
    (∃ t, exec .gcd (busyAt 1 0x00000004#32 48 18 0 0 0#32) = .next t ∧ t.seq ≠ .wait)
      ∧ ∃ t, exec .isprime (busyAt 1 0x00000003#32 0 0 0 97 1#32) = .next t ∧ t.seq = .wait :=
  ⟨⟨_, rfl, by decide⟩, ⟨_, rfl, by decide⟩⟩

theorem witness_dropped_write : ∃ t, exec .powmod (busyAt 1 0x00000002#32 4 0 13 497 0#32) = .next t := ⟨_, rfl⟩

/-! ### Witnesses: the channel -/

theorem witness_answer_step :
    (withSchedule [.respond 93] (waitAt 97 5 3 1 1#32)).rst = false
      ∧ (93 : Nat) < 2 ^ (32 * (withSchedule [.respond 93] (waitAt 97 5 3 1 1#32)).nw)
      ∧ (withSchedule [.respond 93] (waitAt 97 5 3 1 1#32)).schedule = .respond 93 :: []
      ∧ (withSchedule [.respond 93] (waitAt 97 5 3 1 1#32)).seq = .wait
      ∧ 93 < (withSchedule [.respond 93] (waitAt 97 5 3 1 1#32)).rndBound.val
      ∧ (withSchedule [.respond 94] (waitAt 97 5 3 1 1#32)).rndBound.val ≤ 94
      ∧ (withSchedule [.respond 0] (State.resetOf 1)).seq ≠ .wait := by decide

theorem witness_leaving_wait :
    (withSchedule [.bus (busWrite 0x1000#13 9#32)] (waitAt 97 5 3 1 1#32)).SeqOk
      ∧ (withSchedule [.bus (busWrite 0x1000#13 9#32)] (waitAt 97 5 3 1 1#32)).seq = .wait
      ∧ (∀ w rest, (withSchedule [.bus (busWrite 0x1000#13 9#32)] (waitAt 97 5 3 1 1#32)).schedule ≠ .respond w :: rest)
      ∧ (∀ rest, (withSchedule [.bus (busWrite 0x1000#13 9#32)] (waitAt 97 5 3 1 1#32)).schedule ≠ .rst true :: rest)
      ∧ ∃ t, step (withSchedule [.bus (busWrite 0x1000#13 9#32)] (waitAt 97 5 3 1 1#32)) = .next t :=
  ⟨by decide, rfl, by simp [withSchedule], by simp [withSchedule], _, rfl⟩

/-! ### Witnesses: the bus -/

/-- The first and the last word of a window, for NW = 1 and NW = 256, and the last offset of all. -/
theorem witness_address_map :
    regAt 1 0x0000 = some .cmd ∧ regAt 1 0x0004 = some .status ∧ regAt 1 0x0008 = some .ctrl ∧ regAt 1 0x000C = some .iters
      ∧ regAt 1 0x0010 = some .config ∧ regAt 1 0x0014 = none ∧ regAt 1 0x0400 = some (.bank .A 0) ∧ regAt 1 0x0404 = none
      ∧ regAt 256 0x07FC = some (.bank .A 255) ∧ regAt 256 0x0800 = some (.bank .B 0) ∧ regAt 256 0x0BFC = some (.bank .B 255)
      ∧ regAt 256 0x0C00 = some (.bank .E 0) ∧ regAt 256 0x0FFC = some (.bank .E 255) ∧ regAt 256 0x1000 = some (.bank .M 0)
      ∧ regAt 256 0x13FC = some (.bank .M 255) ∧ regAt 256 0x1400 = some (.result 0) ∧ regAt 256 0x17FC = some (.result 255)
      ∧ regAt 256 0x1800 = none ∧ regAt 256 0x1FFC = none ∧ 0x1FFC < 0x2000 ∧ 0x1FFC % 4 = 0 := by decide

theorem witness_refused_accesses :
    (withSchedule [.bus ⟨0x0400#13, 2, .read⟩] (State.resetOf 1)).schedule = .bus ⟨0x0400#13, 2, .read⟩ :: []
      ∧ (BusAccess.mk 0x0400#13 2 .read).size ≠ 4 ∧ (busWrite 0x0402#13 1#32).addr.toNat % 4 ≠ 0
      ∧ regAt (State.resetOf 1).nw (busRead 0x0404#13).addr.toNat = none := by decide

theorem witness_reads :
    (withSchedule [.bus ⟨0x1000#13, 4, .read⟩] (waitAt 97 5 3 1 1#32)).rst = false ∧ (0x1000#13).toNat % 4 = 0
      ∧ regAt (waitAt 97 5 3 1 1#32).nw (0x1000#13).toNat = some (.bank .M 0)
      ∧ (withSchedule [.bus ⟨0x1000#13, 4, .read⟩] (waitAt 97 5 3 1 1#32)).schedule = .bus ⟨0x1000#13, 4, .read⟩ :: [] := by
  decide

theorem witness_layouts : (State.resetOf 256).nw ≤ 256 := by decide

theorem witness_command_write :
    (withSchedule [.bus ⟨0x0000#13, 4, .write 4#32⟩] (State.resetOf 1)).rst = false
      ∧ (withSchedule [.bus ⟨0x0000#13, 4, .write 4#32⟩] (State.resetOf 1)).schedule = .bus ⟨0x0000#13, 4, .write 4#32⟩ :: []
      ∧ (withSchedule [.bus ⟨0x0000#13, 4, .write 4#32⟩] (State.resetOf 1)).status.busy = false
      ∧ (withSchedule [.bus ⟨0x0000#13, 4, .write 4#32⟩] (State.resetOf 1)).SeqOk
      ∧ (withSchedule [.bus ⟨0x0000#13, 4, .write 4#32⟩] (waitAt 97 5 3 1 1#32)).status.busy = true := by decide

theorem witness_status_write :
    (withSchedule [.bus ⟨0x0004#13, 4, .write 0x22#32⟩] (waitAt 97 5 3 1 1#32)).rst = false
      ∧ (withSchedule [.bus ⟨0x0004#13, 4, .write 0x22#32⟩] (waitAt 97 5 3 1 1#32)).schedule
        = .bus ⟨0x0004#13, 4, .write 0x22#32⟩ :: [] := by decide

theorem witness_ctrl_write :
    (withSchedule [.bus ⟨0x0008#13, 4, .write 0xFFFFFFFF#32⟩] (State.resetOf 1)).rst = false
      ∧ (withSchedule [.bus ⟨0x0008#13, 4, .write 0xFFFFFFFF#32⟩] (State.resetOf 1)).schedule
        = .bus ⟨0x0008#13, 4, .write 0xFFFFFFFF#32⟩ :: [] := by decide

/-- ITERS, and the first and the last word of a bank of NW = 256 words, idle and busy. -/
theorem witness_iters_and_bank_writes :
    (withSchedule [.bus ⟨0x000C#13, 4, .write 7#32⟩] (State.resetOf 1)).rst = false
      ∧ (withSchedule [.bus ⟨0x000C#13, 4, .write 7#32⟩] (State.resetOf 1)).status.busy = false
      ∧ (withSchedule [.bus ⟨0x000C#13, 4, .write 7#32⟩] (waitAt 97 5 3 1 1#32)).status.busy = true
      ∧ (State.resetOf 2).WidthOk ∧ (0 : Nat) < (State.resetOf 2).nw ∧ 1 < (State.resetOf 2).nw
      ∧ (0x0400#13).toNat = 0x0400 + 4 * 0 ∧ (0x1004#13).toNat = 0x1000 + 4 * 1
      ∧ (withSchedule [.bus ⟨0x1004#13, 4, .write 9#32⟩] (State.resetOf 2)).schedule = .bus ⟨0x1004#13, 4, .write 9#32⟩ :: []
      ∧ (waitAt 97 5 3 1 1#32).WidthOk ∧ (waitAt 97 5 3 1 1#32).status.busy = true := by decide

theorem witness_read_only_writes :
    (withSchedule [.bus ⟨0x0010#13, 4, .write 1#32⟩] (State.resetOf 2)).rst = false ∧ (State.resetOf 2).nw ≤ 256
      ∧ 1 < (State.resetOf 2).nw ∧ (0x1404#13).toNat = 0x1400 + 4 * 1
      ∧ (withSchedule [.bus ⟨0x1404#13, 4, .write 1#32⟩] (State.resetOf 2)).schedule = .bus ⟨0x1404#13, 4, .write 1#32⟩ :: [] := by
  decide

theorem witness_load :
    (State.resetOf 2).WidthOk ∧ (State.resetOf 2).rst = false ∧ (State.resetOf 2).status.busy = false
      ∧ 0xFFFFFFFFFFFFFFFF < 2 ^ (32 * (State.resetOf 2).nw) := by decide

theorem witness_pseudo_statements : (256 : Nat) ≤ 256 ∧ (255 : Nat) < 256 ∧ (0 : Nat) < 256 := by decide

/-! ### Witnesses: reset and the whole machine -/

theorem witness_reset_widths : (1 : Nat) ≤ 1 ∧ 1 ≤ 256 ∧ (256 : Nat) ≤ 256 := by decide

theorem witness_reset_at_any_time :
    (withSchedule [.rst true] (waitAt 97 5 3 1 1#32)).schedule = .rst true :: []
      ∧ (withSchedule [.bus (busRead 0x0004#13)] (underReset (State.resetOf 1))).rst = true
      ∧ (withSchedule [.bus (busRead 0x0004#13)] (underReset (State.resetOf 1))).schedule = .bus (busRead 0x0004#13) :: []
      ∧ (withSchedule [.respond 0] (underReset (State.resetOf 1))).schedule = .respond 0 :: []
      ∧ (withSchedule [.rst false] (underReset (State.resetOf 1))).schedule = .rst false :: []
      ∧ (underReset (State.resetOf 1)).ResetOk := by decide

/-- A bank changes by a write, and by reset. -/
theorem witness_operand_banks :
    (∃ t, step (withSchedule [.bus (busWrite 0x1000#13 9#32)] (State.resetOf 1)) = .next t
        ∧ t.bank .M ≠ (withSchedule [.bus (busWrite 0x1000#13 9#32)] (State.resetOf 1)).bank .M)
      ∧ ∃ t, step (withSchedule [.rst true] (waitAt 97 5 3 1 1#32)) = .next t
        ∧ t.bank .M ≠ (withSchedule [.rst true] (waitAt 97 5 3 1 1#32)).bank .M :=
  ⟨⟨_, rfl, by decide⟩, ⟨_, rfl, by decide⟩⟩

/-- R changes by a completion, and by reset. -/
theorem witness_result :
    (∃ t, step (busyAt 1 0x00000004#32 48 18 0 0 0#32) = .next t ∧ t.r ≠ (busyAt 1 0x00000004#32 48 18 0 0 0#32).r)
      ∧ ∃ t, step (withSchedule [.rst true] (complete 6 false false (State.resetOf 1))) = .next t
        ∧ t.r ≠ (withSchedule [.rst true] (complete 6 false false (State.resetOf 1))).r :=
  ⟨⟨_, rfl, by decide⟩, ⟨_, rfl, by decide⟩⟩

/-- HAZ rises by a dropped write, falls by a write to STATUS and by reset. -/
theorem witness_haz :
    (∃ t, step (withSchedule [.bus (busWrite 0x000C#13 7#32)] (waitAt 97 5 3 1 1#32)) = .next t ∧ t.status.haz = true
        ∧ (withSchedule [.bus (busWrite 0x000C#13 7#32)] (waitAt 97 5 3 1 1#32)).hazardous (busWrite 0x000C#13 7#32) = true)
      ∧ (∃ t, step (withSchedule [.bus (busWrite 0x0004#13 0x20#32)] (dropWrite (waitAt 97 5 3 1 1#32))) = .next t
        ∧ (dropWrite (waitAt 97 5 3 1 1#32)).status.haz = true ∧ t.status.haz = false)
      ∧ ∃ t, step (withSchedule [.rst true] (dropWrite (waitAt 97 5 3 1 1#32))) = .next t ∧ t.status.haz = false :=
  ⟨⟨_, rfl, by decide, by decide⟩, ⟨_, rfl, by decide, by decide⟩, ⟨_, rfl, by decide⟩⟩

/-- `irq` rises by a completion with IEN = 1, and by setting IEN while DONE = 1. -/
theorem witness_irq :
    (writeCtrl 1#32 (busyAt 1 0x00000004#32 48 18 0 0 0#32)).irq = false
      ∧ (∃ t, step (writeCtrl 1#32 (busyAt 1 0x00000004#32 48 18 0 0 0#32)) = .next t ∧ t.irq = true)
      ∧ (withSchedule [.bus (busWrite 0x0008#13 1#32)] (complete 6 false false (State.resetOf 1))).irq = false
      ∧ ∃ t, step (withSchedule [.bus (busWrite 0x0008#13 1#32)] (complete 6 false false (State.resetOf 1))) = .next t
        ∧ t.irq = true :=
  ⟨by decide, ⟨_, rfl, by decide⟩, by decide, _, rfl, by decide⟩

/-- Each transition of SEQ: accept, completion, draw request, answer in range, answer out of range, reset. -/
theorem witness_sequencer :
    (∃ t, step (withSchedule [.bus (busWrite 0x0000#13 4#32)] (State.resetOf 1)) = .next t ∧ t.seq = .run)
      ∧ (∃ t, step (busyAt 1 0x00000004#32 48 18 0 0 0#32) = .next t ∧ t.seq = .idle)
      ∧ (∃ t, step (busyAt 1 0x00000003#32 0 0 0 97 1#32) = .next t ∧ t.seq = .wait)
      ∧ (∃ t, step (withSchedule [.respond 93] (waitAt 97 5 3 1 1#32)) = .next t ∧ t.seq = .run)
      ∧ (∃ t, step (withSchedule [.respond 94] (waitAt 97 5 3 1 1#32)) = .next t ∧ t.seq = .idle)
      ∧ (∃ t, step (withSchedule [.rst true] (waitAt 97 5 3 1 1#32)) = .next t ∧ t.seq = .idle)
      ∧ (State.resetOf 1).SeqOk ∧ (busyAt 1 0x00000004#32 48 18 0 0 0#32).SeqOk ∧ (waitAt 97 5 3 1 1#32).SeqOk :=
  ⟨⟨_, rfl, rfl⟩, ⟨_, rfl, rfl⟩, ⟨_, rfl, by decide⟩, ⟨_, rfl, by decide⟩, ⟨_, rfl, by decide⟩, ⟨_, rfl, rfl⟩, by decide, by decide,
    by decide⟩

/-- Any step at all, on a machine of a legal width whose ERR and ERRCODE agree. -/
theorem witness_config_and_errcode :
    (busyAt 1 0x00000000#32 5 0 3 7 0#32).WidthOk ∧ (busyAt 1 0x00000000#32 5 0 3 7 0#32).ErrOk
      ∧ (∃ t, step (busyAt 1 0x00000000#32 5 0 3 7 0#32) = .next t) ∧ (raiseErr .rng (State.resetOf 1)).ErrOk :=
  ⟨by decide, by decide, ⟨_, rfl⟩, by decide⟩

/-- The invariant holds with a draw pending, with a round due, and just after an accept; each has a step. -/
theorem witness_invariant :
    ((withSchedule [.respond 93] (waitAt 97 5 3 1 1#32)).Inv
        ∧ ∃ t, step (withSchedule [.respond 93] (waitAt 97 5 3 1 1#32)) = .next t)
      ∧ ((roundAt 97 5 3 1 1#32 93).Inv ∧ ∃ t, step (roundAt 97 5 3 1 1#32 93) = .next t)
      ∧ ((busyAt 1 0x00000004#32 48 18 0 0 0#32).Inv ∧ ∃ t, step (busyAt 1 0x00000004#32 48 18 0 0 0#32) = .next t) :=
  ⟨⟨⟨by decide, by decide, by decide, by decide, ⟨by decide, by decide⟩, by decide⟩, _, rfl⟩,
    ⟨⟨by decide, by decide, by decide, by decide, ⟨by decide, by decide⟩, by decide⟩, _, rfl⟩,
    ⟨⟨by decide, by decide, by decide, by decide, ⟨by decide, by decide⟩, by decide⟩, _, rfl⟩⟩

end Sys2Proof.Tests
end

section
/-! O51: the invariant of the machine, part by part. Each part is kept by every `Move`; `step_move` then says that it is kept by
every step. The parts about widths, SEQ and ERR stand alone; the flags, a pending round and reset lean on one another. -/

namespace Sys2Proof.Machine

/-! ### The decoder: a word decodes to a command exactly when it is the command's word (30_encoding.md R90, R91) -/

theorem decodeOp_eq_some_iff {op : BitVec 8} {i : Instr} : decodeOp op = some i ↔ op = opcode i := by
  constructor
  · intro h
    unfold decodeOp at h
    split_ifs at h <;> cases h <;> assumption
  · rintro rfl
    cases i <;> decide

theorem cmdZero_append_cmdOp (w : Word) : cmdZero w ++ cmdOp w = w := by
  apply BitVec.eq_of_toNat_eq
  have hw := w.isLt
  simp only [cmdZero, cmdOp, BitVec.toNat_append, BitVec.extractLsb'_toNat, Nat.shiftRight_eq_div_pow]
  rw [← Nat.shiftLeft_add_eq_or_of_lt (Nat.mod_lt _ (by decide)), Nat.shiftLeft_eq]
  omega

theorem decode_encode (i : Instr) : decode (encode i) = .command i := by
  cases i <;> decide

theorem decode_eq_command_iff {w : Word} {i : Instr} : decode w = .command i ↔ w = encode i := by
  constructor
  · intro h
    unfold decode at h
    split at h
    · cases h
    · rename_i hz
      have hzero : cmdZero w = 0#24 := not_not.mp hz
      split at h <;> cases h
      rename_i hop
      rw [← cmdZero_append_cmdOp w, hzero, decodeOp_eq_some_iff.mp hop, encode]
  · rintro rfl
    exact decode_encode i

theorem encode_injective : Function.Injective encode := by
  intro i j h
  have hdec := decode_encode i
  rw [h, decode_encode] at hdec
  cases hdec
  rfl

/-! ### What the parts of the invariant say of a running command -/

variable {s t : State} {l : List Event}

/-- The command that runs is the one CMD holds, in every phase (30_encoding.md R96, 70_reset_and_hazards.md R226). -/
theorem cmd_of_runs {i : Instr} (hwit : s.WitnessOk) (hrun : s.seq = .run) (h : Runs s i) : s.cmd = encode i := by
  obtain ⟨-, hdue⟩ := hwit
  rcases h with ⟨-, hdec⟩ | ⟨hph, rfl⟩
  · exact decode_eq_command_iff.mp hdec
  · obtain ⟨⟨hcmd, -⟩, -⟩ := hdue hrun hph
    exact hcmd

/-- BUSY = 0 says that the engine is idle (10_state.md R33). -/
theorem seq_idle_of_not_busy (hseq : s.SeqOk) (hb : s.status.busy = false) : s.seq = .idle := by
  obtain ⟨hbusy, -⟩ := hseq
  cases hs : s.seq with
  | idle => rfl
  | run => simp [hs, hb] at hbusy
  | wait => simp [hs, hb] at hbusy

/-- No command runs and no draw is pending while `rst` is asserted (70_reset_and_hazards.md R210). -/
theorem rst_eq_false_of_seq (hres : s.ResetOk) (hs : s.seq ≠ .idle) : s.rst = false := by
  rw [← Bool.not_eq_true]
  intro hr
  obtain ⟨-, -, -, -, -, -, -, -, -, hidle, -⟩ := hres hr
  exact hs hidle

/-- R holds a result of 0 or 1 as it is: no legal width truncates it (00_scope.md R5, R10). -/
theorem val_ofNat_toNat {nw : Nat} (hnw : 1 ≤ nw) (p : Bool) : (Operand.ofNat nw p.toNat).val = p.toNat := by
  apply Operand.val_ofNat_of_lt
  calc p.toNat < 2 ^ 1 := p.toNat_lt
    _ ≤ 2 ^ (32 * nw) := Nat.pow_le_pow_right (by omega) (by omega)

/-- A draw request leaves the numbers of a pending round: the first one from the decomposition (41_isprime.md R132), a later one
from the round that has passed (R133, R134). -/
theorem requestDraw_roundOk {g : PrimeRegs} (hwit : s.WitnessOk) (hrun : s.seq = .run) (hcmd : s.cmd = encode .isprime)
    (hg : DrawOk s g) : (requestDraw g s).RoundOk := by
  obtain ⟨-, hdue⟩ := hwit
  obtain ⟨hik, ⟨-, h5, hodd, rfl⟩ | ⟨hph, -, rfl⟩⟩ := hg
  · obtain ⟨hn, hk, hi, hsplit, hr, hs⟩ := decompose_spec (isprimeInit s) (Nat.le_trans (by decide) h5)
    have hnM : (decompose (isprimeInit s)).n = s.m.val := hn
    exact ⟨hcmd, rfl, hnM, hk, hnM ▸ h5, hnM ▸ hodd, hn ▸ hsplit, hr, hs hodd, hi.ge, hik⟩
  · obtain ⟨⟨-, -, hn, hk, h5, hodd, hsplit, hr, hs, -, -⟩, -⟩ := hdue hrun hph
    exact ⟨hcmd, rfl, hn, hk, h5, hodd, hsplit, hr, hs, Nat.le_add_left 1 _, hik⟩

/-- RND_BOUND holds n - 3, which the width does not truncate, since n is M (41_isprime.md R134). -/
theorem requestDraw_rndBound_val {g : PrimeRegs} (hw : s.WidthOk) (hn : g.n = s.m.val) :
    (requestDraw g s).rndBound.val = g.n - 3 := by
  obtain ⟨-, -, -, -, -, hm, -, -⟩ := hw
  apply Operand.val_ofNat_of_lt
  calc g.n - 3 ≤ s.m.val := by omega
    _ < 2 ^ (32 * s.nw) := hm ▸ Operand.val_lt s.m

/-! ### Widths (00_scope.md R5, R7) -/

theorem setBank_widthOk (y : Bank) (i : Nat) (d : Word) (h : s.WidthOk) :
    (s.setBank y ((s.bank y).setWord i d)).WidthOk := by
  cases y <;> simpa [State.WidthOk, State.setBank, State.bank] using h

theorem move_keeps_widthOk (h : Move s { s with schedule := l } t) (hw : s.WidthOk) : t.WidthOk := by
  have ⟨h1, h256, ha, hb, he, hm, hr, hbound⟩ := hw
  cases h with
  | stay | take | answered | drop | accept | status | ctrl | iters | rstOff => exact hw
  | err | done | rng => exact ⟨h1, h256, ha, hb, he, hm, Operand.length_ofNat _ _, hbound⟩
  | draw => exact ⟨h1, h256, ha, hb, he, hm, hr, Operand.length_ofNat _ _⟩
  | bank acc d rest y i => exact setBank_widthOk (s := { s with schedule := l }) y i d hw
  | rstOn =>
    have hz : (zeroOperand s.nw).length = s.nw := length_zeroOperand s.nw
    exact ⟨h1, h256, hz, hz, hz, hz, hz, hz⟩

/-! ### BUSY and RNDWAIT with SEQ (10_state.md R33, R38) -/

theorem move_keeps_seqOk (h : Move s { s with schedule := l } t) (hseq : s.SeqOk) : t.SeqOk := by
  have ⟨hbusy, hwait⟩ := hseq
  cases h with
  | stay | answered | drop | status | ctrl | iters | rstOff => exact hseq
  | bank => simpa [State.SeqOk] using hseq
  | err | done | rng | rstOn => simp [State.SeqOk, Status.reset]
  | draw g hrun => simp [State.SeqOk, hbusy, hrun]
  | take w rest hsch hrst hsw => simp [State.SeqOk, hbusy, hsw]
  | accept acc d rest hsch hrst hop htgt hb => simp [State.SeqOk, hwait, seq_idle_of_not_busy hseq hb]

/-! ### ERR with ERRCODE (10_state.md R34) -/

theorem raiseErr_errOk (c : ErrorCause) (s : State) : (raiseErr c s).ErrOk := by
  cases c <;> simp [State.ErrOk, errorCode]

theorem move_keeps_errOk (h : Move s { s with schedule := l } t) (herr : s.ErrOk) : t.ErrOk := by
  cases h with
  | stay | draw | take | answered | drop | status | ctrl | iters | rstOff => exact herr
  | bank => simpa [State.ErrOk] using herr
  | err | rng => exact raiseErr_errOk _ _
  | done | accept | rstOn => simp [State.ErrOk, Status.reset]

/-! ### The outcome flags (10_state.md R35, R36, 60_exceptions.md R183, R184) -/

/-- While BUSY = 1 the outcome flags are 0, and then R and CMD are unconstrained by them. -/
theorem flagsOk_of_busy (hb : s.status.busy = true)
    (h : s.status.done = false ∧ s.status.err = false ∧ s.status.prime = false ∧ s.status.noinv = false) : s.FlagsOk := by
  simp [State.FlagsOk, h, hb]

theorem raiseErr_flagsOk (c : ErrorCause) (s : State) : (raiseErr c s).FlagsOk := by
  simp [State.FlagsOk, ofNat_zero]

theorem complete_flagsOk {i : Instr} {v : Nat} {p n : Bool} (hnw : 1 ≤ s.nw) (hcmd : s.cmd = encode i)
    (hres : ResultOk i v p n) : (complete v p n s).FlagsOk := by
  obtain ⟨hprime, hnoinv, hval⟩ := hres
  have hR : i = .isprime → (Operand.ofNat s.nw v).val = p.toNat := fun hi => by
    rw [hval hi]
    exact val_ofNat_toNat hnw p
  refine ⟨fun hb => ?_, fun he => ?_, fun hp => ?_, fun hn => ?_, fun _ hc => ?_⟩
  · cases hb
  · cases he
  · have hp' : p = true := hp
    have hi := hprime hp'
    exact ⟨hi ▸ hcmd, by simpa [hp'] using hR hi⟩
  · obtain ⟨hi, rfl⟩ := hnoinv hn
    exact ⟨hi ▸ hcmd, by simp [ofNat_zero]⟩
  · have hi : i = .isprime := encode_injective (hcmd.symm.trans hc)
    cases p <;> simp [hR hi]

theorem move_keeps_flagsOk (h : Move s { s with schedule := l } t) (hnw : 1 ≤ s.nw) (hwit : s.WitnessOk)
    (hf : s.FlagsOk) : t.FlagsOk := by
  cases h with
  | stay | draw | take | answered | drop | ctrl | iters | rstOff => exact hf
  | bank => simpa [State.FlagsOk] using hf
  | err | rng => exact raiseErr_flagsOk _ _
  | done i v p n hrun hruns hres => exact complete_flagsOk hnw (cmd_of_runs hwit hrun hruns) hres
  | accept => exact flagsOk_of_busy rfl ⟨rfl, rfl, rfl, rfl⟩
  | status =>
    obtain ⟨hbusy, hrest⟩ := hf
    refine ⟨fun hb => ?_, hrest⟩
    obtain ⟨hd, hflags⟩ := hbusy hb
    exact ⟨by simp [hd], hflags⟩
  | rstOn => simp [State.FlagsOk, Status.reset]

/-! ### The numbers of a pending round (41_isprime.md R132, R134, R141) -/

/-- An idle engine has no round pending. -/
theorem witnessOk_of_idle (h : s.seq = .idle) : s.WitnessOk := by
  simp [State.WitnessOk, h]

theorem move_keeps_witnessOk (h : Move s { s with schedule := l } t) (hw : s.WidthOk) (hseq : s.SeqOk)
    (hwit : s.WitnessOk) : t.WitnessOk := by
  cases h with
  | stay | answered | drop | status | ctrl | rstOff => exact hwit
  | err | done | rng | rstOn => exact witnessOk_of_idle rfl
  | draw g hrun hruns hg =>
    have hround : (requestDraw g { s with schedule := l }).RoundOk :=
      requestDraw_roundOk (s := { s with schedule := l }) hwit hrun (cmd_of_runs hwit hrun hruns) hg
    have ⟨_, _, hn, _⟩ := hround
    exact ⟨fun _ => ⟨hround, requestDraw_rndBound_val (s := { s with schedule := l }) hw hn⟩, nofun⟩
  | take w rest hsch hrst hsw hlt =>
    obtain ⟨hpending, -⟩ := hwit
    obtain ⟨hround, hbound⟩ := hpending hsw
    exact ⟨nofun, fun _ _ => ⟨hround, hbound ▸ hlt⟩⟩
  | accept => exact ⟨nofun, fun _ => nofun⟩
  | iters acc d rest hsch hrst hop htgt hb => exact witnessOk_of_idle (seq_idle_of_not_busy hseq hb)
  | bank acc d rest y i hsch hrst hop htgt hb =>
    exact witnessOk_of_idle ((setBank_seq _ y _).trans (seq_idle_of_not_busy hseq hb))

/-! ### Reset asserted (70_reset_and_hazards.md R210) -/

/-- With `rst` released nothing is claimed of the reset values. -/
theorem resetOk_of_not_rst (h : s.rst = false) : s.ResetOk := fun hr => by
  rw [h] at hr
  cases hr

theorem assertReset_atReset (s : State) : (assertReset s).AtReset :=
  ⟨rfl, rfl, rfl, rfl, rfl, rfl, rfl, rfl, rfl, rfl, rfl⟩

theorem move_keeps_resetOk (h : Move s { s with schedule := l } t) (hres : s.ResetOk) : t.ResetOk := by
  cases h with
  | stay | answered => exact hres
  | err _ hs | done _ _ _ _ hs | draw _ hs | rng _ _ _ hs =>
    have hr : s.rst = false := rst_eq_false_of_seq hres (by simp [hs])
    exact resetOk_of_not_rst hr
  | take _ _ _ hr | drop _ _ _ _ _ hr | accept _ _ _ _ hr | status _ _ _ _ hr | ctrl _ _ _ _ hr | iters _ _ _ _ hr =>
    exact resetOk_of_not_rst hr
  | bank _ _ _ y _ _ hr => exact resetOk_of_not_rst ((setBank_rst _ y _).trans hr)
  | rstOn => exact fun _ => assertReset_atReset _
  | rstOff => exact resetOk_of_not_rst rfl

/-! ### The invariant -/

theorem move_keeps_inv (h : Move s { s with schedule := l } t) (hinv : s.Inv) : t.Inv := by
  obtain ⟨hw, hseq, herr, hf, hwit, hres⟩ := hinv
  have hnw : 1 ≤ s.nw := hw.1
  exact ⟨move_keeps_widthOk h hw, move_keeps_seqOk h hseq, move_keeps_errOk h herr, move_keeps_flagsOk h hnw hwit hf,
    move_keeps_witnessOk h hw hseq hwit, move_keeps_resetOk h hres⟩

/-- Settles O51: every step is a move (`step_move`), and every move keeps each part of the invariant. -/
theorem everyStepKeepsTheInvariant : Obligations.EveryStepKeepsTheInvariant := by
  intro s t hinv hstep
  obtain ⟨l, hmove⟩ := step_move hstep
  exact move_keeps_inv hmove hinv

end Sys2Proof.Machine
end

section
/-! O24, O25: what the engine's run of a command leaves unchanged and what it does not look at. By `exec_cases` a command ends
in one of three operations on the state, so each claim is one fact about `complete`, `raiseErr` and `requestDraw`. -/

namespace Sys2Proof.Machine

/-! ### What the three ends of a command leave unchanged (10_state.md R21, 60_exceptions.md R183, R184) -/

/-- R, STATUS, SEQ, the working registers and RND_BOUND show in no register word the host reads but STATUS and R. -/
theorem readReg_of_result_status_hidden (s : State) (r : Operand) (f : Status) (q : Seq) (g : Work) (bound : Operand)
    (k : Nat) {x : RegWord} (hstatus : x ≠ .status) (hresult : ∀ j, x ≠ .result j) :
    readReg { s with r := r, status := f, seq := q, work := g, rndBound := bound, fresh := k } x = readReg s x := by
  cases x with
  | cmd | ctrl | iters | config | bank => rfl
  | status => exact absurd rfl hstatus
  | result j => exact absurd rfl (hresult j)

variable {s s' t : State} {i : Instr}

/-- All that the run of a command can write, and of STATUS not HAZ (10_state.md R37). -/
theorem exec_frame (h : exec i s = .next t) :
    ∃ r f q g bound k, t = { s with r := r, status := f, seq := q, work := g, rndBound := bound, fresh := k }
      ∧ f.haz = s.status.haz := by
  rcases exec_cases i s with ⟨v, p, n, -, hend⟩ | ⟨-, -, hend⟩ | ⟨-, g, -, hend⟩ <;> rw [hend] at h <;> cases h <;>
    exact ⟨_, _, _, _, _, _, rfl, rfl⟩

/-- The engine waits after a draw request only, and every other end of a command leaves RND_BOUND (41_isprime.md R134). -/
theorem exec_wait_or_rndBound (h : exec i s = .next t) :
    (t.seq = .wait ∧ i = .isprime ∧ t.r = s.r ∧ t.status = { s.status with rndwait := true })
      ∨ (t.seq ≠ .wait ∧ t.rndBound = s.rndBound) := by
  rcases exec_cases i s with ⟨v, p, n, -, hend⟩ | ⟨-, -, hend⟩ | ⟨hi, g, -, hend⟩ <;> rw [hend] at h <;> cases h
  · exact Or.inr ⟨nofun, rfl⟩
  · exact Or.inr ⟨nofun, rfl⟩
  · exact Or.inl ⟨rfl, hi, rfl, rfl⟩

/-- Settles O24: the frame of `exec` register by register, and the one end of a command that waits. -/
theorem commandsChangeOnlyResultFlagsAndHiddenState : Obligations.CommandsChangeOnlyResultFlagsAndHiddenState := by
  intro i s t hexec
  have hend := exec_wait_or_rndBound hexec
  obtain ⟨r, f, q, g, bound, k, rfl, hhaz⟩ := exec_frame hexec
  refine ⟨fun x => readReg_of_result_status_hidden s r f q g bound k, rfl, rfl, rfl, rfl, rfl, rfl, rfl, rfl, hhaz, rfl, rfl,
    rfl, ?_⟩
  rcases hend with ⟨hwait, hdraw⟩ | ⟨hnot, hbound⟩
  · exact ⟨fun _ => hdraw, fun hne => absurd hwait hne⟩
  · exact ⟨fun hwait => absurd hwait hnot, fun _ => hbound⟩

/-! ### What the three ends of a command do not look at (10_state.md R21) -/

/-- The two states agree on all that the end of a command starts from: NW, R, STATUS and RND_BOUND. -/
def SameVisible (s s' : State) : Prop :=
  s'.nw = s.nw ∧ s'.r = s.r ∧ s'.status = s.status ∧ s'.rndBound = s.rndBound

theorem sameOutcome_complete (h : SameVisible s s') (v : Nat) (p n : Bool) :
    SameOutcome (.next (complete v p n s)) (.next (complete v p n s')) := by
  obtain ⟨hnw, -, hstatus, hbound⟩ := h
  exact ⟨_, _, rfl, rfl, by simp [hnw], by simp [hstatus], rfl, by simp [hbound]⟩

theorem sameOutcome_raiseErr (h : SameVisible s s') (c : ErrorCause) :
    SameOutcome (.next (raiseErr c s)) (.next (raiseErr c s')) := by
  obtain ⟨hnw, -, hstatus, hbound⟩ := h
  exact ⟨_, _, rfl, rfl, by simp [hnw], by simp [hstatus], rfl, by simp [hbound]⟩

theorem sameOutcome_endSegment (h : SameVisible s s') (x : Segment) :
    SameOutcome (.next (endSegment x s)) (.next (endSegment x s')) := by
  cases x with
  | finish result => exact sameOutcome_complete h _ _ _
  | draw g =>
    obtain ⟨hnw, hr, hstatus, -⟩ := h
    exact ⟨_, _, rfl, rfl, hr, by simp [endSegment, hstatus], rfl, by simp [endSegment, hnw]⟩

/-- Two runs that take the same branch agree where both branches do. -/
theorem sameOutcome_ite {c : Prop} [Decidable c] {o₁ o₁' o₂ o₂' : Host.Outcome State Fault Refusal}
    (h₁ : SameOutcome o₁ o₁') (h₂ : SameOutcome o₂ o₂') :
    SameOutcome (if c then o₁ else o₂) (if c then o₁' else o₂') := by
  split
  · exact h₁
  · exact h₂

/-- ISPRIME looks at M, ITERS and its working registers only (41_isprime.md R130). -/
theorem sameOutcome_execIsprime (h : SameVisible s s') (hm : s'.m = s.m) (hk : s'.iters = s.iters)
    (hwork : s'.work = s.work) : SameOutcome (execIsprime s) (execIsprime s') := by
  have hinit : isprimeInit s' = isprimeInit s := by simp [isprimeInit, hm, hk, hwork]
  unfold execIsprime
  rw [hinit, hwork]
  cases s.work.ph with
  | start => exact sameOutcome_endSegment h _
  | round => exact sameOutcome_endSegment h _

/-- Settles O25: a command tests and computes from the banks it reads, and the states before it agree on the rest. -/
theorem unreadOperandsHaveNoEffect : Obligations.UnreadOperandsHaveNoEffect := by
  intro s a b e m k
  have hmulmod : SameVisible s { s with e := e, iters := k } := ⟨rfl, rfl, rfl, rfl⟩
  have hpowmod : SameVisible s { s with b := b, iters := k } := ⟨rfl, rfl, rfl, rfl⟩
  have hisprime : SameVisible s { s with a := a, b := b, e := e } := ⟨rfl, rfl, rfl, rfl⟩
  have hgcd : SameVisible s { s with e := e, m := m, iters := k } := ⟨rfl, rfl, rfl, rfl⟩
  have hmodinv : SameVisible s { s with b := b, e := e, iters := k } := ⟨rfl, rfl, rfl, rfl⟩
  exact ⟨sameOutcome_ite (sameOutcome_raiseErr hmulmod _) (sameOutcome_complete hmulmod _ _ _),
    sameOutcome_ite (sameOutcome_raiseErr hpowmod _) (sameOutcome_complete hpowmod _ _ _),
    sameOutcome_execIsprime hisprime rfl rfl rfl, sameOutcome_complete hgcd _ _ _,
    sameOutcome_ite (sameOutcome_raiseErr hmodinv _) (sameOutcome_complete hmodinv _ _ _)⟩

end Sys2Proof.Machine
end

section
/-! O32, O47, O40: the words the host reads (10_state.md R29 to R31), that CONFIG is constant (R30), and the values after reset
(R50). -/

namespace Sys2Proof.Machine

/-! ### STATUS, CTRL and CONFIG as words -/

/-- Above the seven flags and the reserved bit 7 stands ERRCODE, and 0 above it (10_state.md R31). -/
theorem getLsbD_word_add_eight (f : Status) (i : Nat) : f.word.getLsbD (8 + i) = f.errcode.getLsbD i := by
  have hsub : 8 + i - 1 - 1 - 1 - 1 - 1 - 1 - 1 - 1 = i := by omega
  simp only [Status.word, BitVec.getLsbD_append, hsub]
  repeat rw [if_neg (by omega)]
  split
  · rfl
  · rw [BitVec.getLsbD_zero, BitVec.getLsbD_of_ge _ _ (by omega)]

theorem extractLsb'_word_errcode (f : Status) : f.word.extractLsb' 8 4 = f.errcode := by
  ext i hi
  simp [getLsbD_word_add_eight, hi]

theorem extractLsb'_word_reserved (f : Status) : f.word.extractLsb' 12 20 = 0#20 := by
  ext i hi
  have h : 12 + i = 8 + (4 + i) := by omega
  simp [h, getLsbD_word_add_eight]

/-- Every legal W fits in bits 15:0 of CONFIG (10_state.md R30). -/
theorem toNat_ofNat_width {s : State} (h : s.nw ≤ 256) : (BitVec.ofNat 16 s.width).toNat = 32 * s.nw := by
  rw [BitVec.toNat_ofNat, State.width, Nat.mod_eq_of_lt (by omega)]

theorem extractLsb'_configWord_low (s : State) : s.configWord.extractLsb' 0 16 = BitVec.ofNat 16 s.width :=
  BitVec.extractLsb'_append_eq_right

theorem extractLsb'_configWord_high (s : State) : s.configWord.extractLsb' 16 16 = 0#16 :=
  BitVec.extractLsb'_append_eq_left

theorem toNat_configWord {s : State} (h : s.nw ≤ 256) : s.configWord.toNat = 32 * s.nw := by
  rw [State.configWord, BitVec.toNat_append, toNat_ofNat_width h]
  simp

/-- Settles O32: the appended fields stand in the order of R31, R29 and R30, each at its offset. -/
theorem registerWordLayouts : Obligations.RegisterWordLayouts := by
  refine ⟨fun f => ⟨?_, ?_, ?_, ?_, ?_, ?_, ?_, ?_, extractLsb'_word_errcode f, extractLsb'_word_reserved f⟩,
    fun c => ⟨?_, BitVec.extractLsb'_append_eq_left⟩, fun s => toNat_configWord⟩
  all_goals
    simp only [Status.word, Ctrl.word, BitVec.getLsbD_append]
    simp

/-! ### CONFIG over a step -/

theorem move_nw {s t : State} {l : List Event} (h : Move s { s with schedule := l } t) : t.nw = s.nw := by
  cases h with
  | bank acc d rest y i => exact setBank_nw _ y _
  | stay | err | done | draw | rng | take | answered | drop | accept | status | ctrl | iters | rstOn | rstOff => rfl

/-- CONFIG is a function of NW (10_state.md R30). -/
theorem readReg_config_congr {s t : State} (h : t.nw = s.nw) : readReg t .config = readReg s .config := by
  simp [readReg, State.configWord, State.width, h]

/-- Settles O47: every move keeps NW, and CONFIG is computed from NW. -/
theorem configNeverChanges : Obligations.ConfigNeverChanges := by
  intro s t hstep
  obtain ⟨l, hmove⟩ := step_move hstep
  have hnw := move_nw hmove
  refine ⟨hnw, readReg_config_congr hnw, fun ⟨h1, h256, _⟩ => ?_⟩
  refine ⟨?_, extractLsb'_configWord_high s, by omega, by omega⟩
  rw [readReg, extractLsb'_configWord_low, toNat_ofNat_width h256]

/-! ### After reset -/

/-- Settles O40: the registers of `State.resetOf` hold 0, and neither the engine nor an answer moves an idle machine. -/
theorem resetValues : Obligations.ResetValues := by
  intro nw h1 h256
  have hzero := val_zeroOperand nw
  have hstatus : Status.reset.word = 0#32 := by decide
  have hctrl : Ctrl.word { ien := false } = 0#32 := by decide
  exact ⟨hzero, hzero, hzero, hzero, hzero, hzero, rfl, hstatus, hctrl, rfl, toNat_configWord h256, rfl, rfl, rfl, rfl,
    fun _ => rfl⟩

end Sys2Proof.Machine
end

section
/-! O42, O43, O44, O46: what a step that changes a bank, R, HAZ or SEQ must have been. Each is a case analysis of `Move`: a
move that leaves the register alone is excluded by the premise that it changed, and each of the others carries its cause. -/

namespace Sys2Proof.Machine

variable {s t : State} {l : List Event}

/-! ### The operand banks and R (10_state.md R21, R22) -/

/-- Settles O42: of all the moves only a bank write and an assertion of `rst` change a bank, and a write only the bank it
names. -/
theorem operandBanksChangeOnlyByHostWriteOrReset : Obligations.OperandBanksChangeOnlyByHostWriteOrReset := by
  intro s t x hstep hne
  obtain ⟨l, hmove⟩ := step_move hstep
  cases hmove with
  | stay | err | done | draw | rng | take | answered | drop | accept | status | ctrl | iters | rstOff => exact absurd rfl hne
  | rstOn rest hsch => exact Or.inr ⟨rest, hsch⟩
  | bank acc d rest y i hsch hrst hop htgt hb =>
    have hxy : x = y := by
      by_contra hxy
      exact hne (setBank_bank_other _ _ hxy)
    exact Or.inl ⟨acc, d, i, rest, hsch, hop, hxy ▸ htgt, hb, hrst⟩

/-- Settles O43: of all the moves only the two completions and an assertion of `rst` write R. -/
theorem resultChangesOnlyAtCompletionOrReset : Obligations.ResultChangesOnlyAtCompletionOrReset := by
  intro s t hstep hne
  obtain ⟨l, hmove⟩ := step_move hstep
  cases hmove with
  | stay | draw | take | answered | drop | accept | status | ctrl | iters | rstOff => exact absurd rfl hne
  | bank acc d rest y i => exact absurd (setBank_r _ y _) hne
  | err _ hseq | done _ _ _ _ hseq | rng _ _ _ hseq => exact Or.inl ⟨by simp [hseq], rfl, rfl, rfl⟩
  | rstOn rest hsch => exact Or.inr ⟨rest, hsch⟩

/-! ### HAZ (10_state.md R37) -/

/-- A hazardous access is a write to a register word that a busy machine protects (70_reset_and_hazards.md R220). -/
theorem hazardous_iff {acc : BusAccess} :
    s.hazardous acc = true ↔
      s.status.busy = true ∧ ∃ d x, acc.op = .write d ∧ accessTarget s.nw acc = some x
        ∧ (x = .cmd ∨ x = .iters ∨ ∃ y i, x = .bank y i) := by
  unfold State.hazardous
  constructor
  · intro h
    split at h
    · rename_i d hop htgt
      exact ⟨h, d, _, hop, htgt, Or.inl rfl⟩
    · rename_i d hop htgt
      exact ⟨h, d, _, hop, htgt, Or.inr (Or.inl rfl)⟩
    · rename_i d y i hop htgt
      exact ⟨h, d, _, hop, htgt, Or.inr (Or.inr ⟨y, i, rfl⟩)⟩
    · cases h
  · rintro ⟨hb, d, x, hop, htgt, rfl | rfl | ⟨y, i, rfl⟩⟩ <;> simp [hop, htgt, hb]

/-- A hazardous access outside reset is a dropped write (20_memory.md R68, R71). -/
theorem busAccess_of_hazardous {acc : BusAccess} (hrst : s.rst = false) (h : s.hazardous acc = true) :
    busAccess acc s = answerHost .ok (dropWrite s) := by
  obtain ⟨hb, d, x, hop, htgt, rfl | rfl | ⟨y, i, rfl⟩⟩ := hazardous_iff.mp h <;>
    simp [busAccess, hrst, htgt, accessReg, hop, writeReg, writeCmd, writeIters, writeBank, hb]

/-- Everything a move can do to HAZ. -/
theorem move_haz (h : Move s { s with schedule := l } t) :
    t.status.haz = s.status.haz
      ∨ (t.status.haz = true ∧ ∃ acc rest, s.schedule = .bus acc :: rest ∧ s.rst = false ∧ s.hazardous acc = true)
      ∨ (t.status.haz = false
          ∧ ((∃ acc d rest, s.schedule = .bus acc :: rest ∧ acc.op = .write d ∧ accessTarget s.nw acc = some .status
                ∧ d.getLsbD 5 = true)
              ∨ ∃ rest, s.schedule = .rst true :: rest)) := by
  cases h with
  | stay | err | done | draw | rng | take | answered | accept | ctrl | iters | rstOff => exact Or.inl rfl
  | bank acc d rest y i => exact Or.inl (congrArg Status.haz (setBank_status _ y _))
  | drop x acc d rest hsch hrst hop htgt hb hx =>
    exact Or.inr (Or.inl ⟨rfl, acc, rest, hsch, hrst, hazardous_iff.mpr ⟨hb, d, x, hop, htgt, hx⟩⟩)
  | status acc d rest hsch hrst hop htgt =>
    by_cases hd : d.getLsbD 5 = true
    · exact Or.inr (Or.inr ⟨if_pos hd, Or.inl ⟨acc, d, rest, hsch, hop, htgt, hd⟩⟩)
    · exact Or.inl (if_neg hd)
  | rstOn rest hsch => exact Or.inr (Or.inr ⟨rfl, Or.inr ⟨rest, hsch⟩⟩)

/-- Settles O44: the two directions in which a move can change HAZ, and that a hazardous access is a dropped write. -/
theorem hazRecordsDroppedWritesOnly : Obligations.HazRecordsDroppedWritesOnly := by
  intro s t hstep
  obtain ⟨l, hmove⟩ := step_move hstep
  refine ⟨fun hset => ?_, fun acc rest hsch hrst hhaz => ?_, fun hs ht => ?_⟩
  · rcases move_haz hmove with h | ⟨-, hdropped⟩ | ⟨h, -⟩
    · exact Or.inl (h ▸ hset)
    · exact Or.inr hdropped
    · simp [h] at hset
  · rw [step_bus hsch, busAccess_of_hazardous (s := { s with schedule := rest }) hrst hhaz] at hstep
    cases hstep
    rfl
  · rcases move_haz hmove with h | ⟨h, -⟩ | ⟨-, hcleared⟩
    · simp [hs, ht] at h
    · simp [ht] at h
    · exact hcleared

/-! ### SEQ (10_state.md R40) -/

/-- Settles O46: each move that changes SEQ is one transition of R40; only an idle engine accepts, since BUSY follows SEQ. -/
theorem sequencerTransitions : Obligations.SequencerTransitions := by
  intro s t hseq hstep hne
  obtain ⟨l, hmove⟩ := step_move hstep
  cases hmove with
  | stay | answered | drop | status | ctrl | iters | rstOff => exact absurd rfl hne
  | bank acc d rest y i => exact absurd (setBank_seq _ y _) hne
  | accept acc d rest hsch hrst hop htgt hb =>
    exact Or.inl ⟨seq_idle_of_not_busy hseq hb, rfl, acc, d, rest, hsch, hop, htgt, rfl⟩
  | err _ hrun | done _ _ _ _ hrun => exact Or.inr (Or.inl ⟨hrun, rfl, rfl⟩)
  | draw _ hrun => exact Or.inr (Or.inr (Or.inl ⟨hrun, rfl, rfl⟩))
  | take w rest hsch hrst hwait hlt => exact Or.inr (Or.inr (Or.inr (Or.inl ⟨hwait, rfl, ⟨w, rest, hsch⟩, hlt⟩)))
  | rng w rest hsch hwait => exact Or.inr (Or.inr (Or.inr (Or.inr (Or.inl ⟨hwait, rfl, ⟨w, rest, hsch⟩, rfl, rfl⟩))))
  | rstOn rest hsch => exact Or.inr (Or.inr (Or.inr (Or.inr (Or.inr ⟨rfl, rest, hsch⟩))))

end Sys2Proof.Machine
end

section
/-! O48, O49, O50: the parts of the invariant that stand alone, and the reset state, which meets every part. -/

namespace Sys2Proof.Machine

theorem resetOf_widthOk {nw : Nat} (h1 : 1 ≤ nw) (h256 : nw ≤ 256) : (State.resetOf nw).WidthOk := by
  have hz : (zeroOperand nw).length = nw := length_zeroOperand nw
  exact ⟨h1, h256, hz, hz, hz, hz, hz, hz⟩

theorem resetOf_seqOk (nw : Nat) : (State.resetOf nw).SeqOk := by
  simp [State.SeqOk, State.resetOf, Status.reset]

theorem resetOf_errOk (nw : Nat) : (State.resetOf nw).ErrOk := by
  simp [State.ErrOk, State.resetOf, Status.reset]

/-- CMD holds 0, the word of no command, so the outcome flags claim nothing of R (10_state.md R28, R50). -/
theorem resetOf_flagsOk (nw : Nat) : (State.resetOf nw).FlagsOk := by
  have hcmd : (0#32 : Word) ≠ encode .isprime := by decide
  exact ⟨nofun, nofun, nofun, nofun, fun _ h => absurd h hcmd⟩

theorem resetOf_inv {nw : Nat} (h1 : 1 ≤ nw) (h256 : nw ≤ 256) : (State.resetOf nw).Inv :=
  ⟨resetOf_widthOk h1 h256, resetOf_seqOk nw, resetOf_errOk nw, resetOf_flagsOk nw, witnessOk_of_idle rfl,
    resetOk_of_not_rst rfl⟩

/-- Settles O48: the reset state has it, and every move keeps it. -/
theorem busyAndRndwaitFollowTheSequencer : Obligations.BusyAndRndwaitFollowTheSequencer := by
  refine ⟨resetOf_seqOk, fun s t hseq hstep => ?_⟩
  obtain ⟨l, hmove⟩ := step_move hstep
  exact move_keeps_seqOk hmove hseq

/-- Settles O49: the reset state has it, and every move keeps it. -/
theorem errcodeStaysLegal : Obligations.ErrcodeStaysLegal := by
  refine ⟨resetOf_errOk, fun s t herr hstep => ?_⟩
  obtain ⟨l, hmove⟩ := step_move hstep
  exact move_keeps_errOk hmove herr

/-- Settles O50: the reset state of a legal width meets the invariant part by part, and the width of `State.reset` is legal. -/
theorem resetMeetsTheInvariant : Obligations.ResetMeetsTheInvariant :=
  ⟨rfl, resetOf_inv (by decide) (by decide), fun _ => resetOf_inv⟩

end Sys2Proof.Machine
end

section
/-! O29, O30, O36, O31, O33, O34, O35, O37: the address map as an equivalence, and what a step on a bus event is for an access
that is refused, a read, a dropped write and a write that is performed (20_memory.md R61 to R73). -/

namespace Sys2Proof.Machine

/-! ### The address map: an offset names a word exactly when it is the offset of an implemented word (20_memory.md R61) -/

/-- The register words of a machine of NW words a bank: the five 32-bit registers and the first NW words of each window (R61). -/
def Implemented (nw : Nat) : RegWord → Prop
  | .bank _ i => i < nw
  | .result i => i < nw
  | .cmd | .status | .ctrl | .iters | .config => True

theorem bankBase_aligned (x : Bank) : bankBase x % 4 = 0 := by
  cases x <;> rfl

/-- The word an offset names in a window is the one at that offset from the base (R61). -/
theorem word_of_window {nw base off : Nat} {f : Nat → RegWord} {x : RegWord} (hoff : off % 4 = 0) (hbase : base % 4 = 0)
    (h : (windowIndex nw base off).map f = some x) : ∃ i, i < nw ∧ off = base + 4 * i ∧ x = f i := by
  obtain ⟨i, hi, rfl⟩ := Option.map_eq_some_iff.mp h
  obtain ⟨hlow, hhigh, hidx⟩ := windowIndex_some hi
  exact ⟨i, by omega, by omega, rfl⟩

theorem offset_of_bankWindow {nw off : Nat} {b : Bank} {x : RegWord} (hoff : off % 4 = 0)
    (h : (windowIndex nw (bankBase b) off).map (RegWord.bank b) = some x) : Implemented nw x ∧ off = offsetOf x := by
  obtain ⟨i, hi, hat, rfl⟩ := word_of_window hoff (bankBase_aligned b) h
  exact ⟨hi, hat⟩

theorem offset_of_resultWindow {nw off : Nat} {x : RegWord} (hoff : off % 4 = 0)
    (h : (windowIndex nw resultBase off).map RegWord.result = some x) : Implemented nw x ∧ off = offsetOf x := by
  obtain ⟨i, hi, hat, rfl⟩ := word_of_window hoff rfl h
  exact ⟨hi, hat⟩

theorem regAt_offsetOf {nw : Nat} {x : RegWord} (hnw : nw ≤ 256) (hx : Implemented nw x) :
    regAt nw (offsetOf x) = some x := by
  cases x with
  | cmd | status | ctrl | iters | config => rfl
  | bank b i => exact regAt_bank b hnw hx
  | result i => exact regAt_result hnw hx

/-- Each window's offset is its base and four times the word's index; the five registers stand at their own offsets. -/
theorem offsetOf_of_regAt {nw off : Nat} {x : RegWord} (hoff : off % 4 = 0) (h : regAt nw off = some x) :
    Implemented nw x ∧ off = offsetOf x := by
  unfold regAt at h
  repeat' split at h
  iterate 5
    · cases h
      exact ⟨trivial, ‹_›⟩
  · cases h
  · exact offset_of_bankWindow (b := .A) hoff h
  · exact offset_of_bankWindow (b := .B) hoff h
  · exact offset_of_bankWindow (b := .E) hoff h
  · exact offset_of_bankWindow (b := .M) hoff h
  · exact offset_of_resultWindow hoff h
  · cases h

theorem regAt_eq_some_iff {nw off : Nat} {x : RegWord} (hnw : nw ≤ 256) (hoff : off % 4 = 0) :
    regAt nw off = some x ↔ Implemented nw x ∧ off = offsetOf x := by
  constructor
  · exact offsetOf_of_regAt hoff
  · rintro ⟨hx, rfl⟩
    exact regAt_offsetOf hnw hx

/-- Settles O29: `regAt_eq_some_iff`, read off register by register and bank by bank. -/
theorem addressMap : Obligations.AddressMap := by
  intro nw off x _ hnw _ hoff
  rw [regAt_eq_some_iff hnw hoff]
  cases x with
  | cmd | status | ctrl | iters | config => simp [Implemented, offsetOf]
  | bank b i => cases b <;> simp [Implemented, offsetOf, bankBase]
  | result i => simp [Implemented, offsetOf, resultBase]

/-! ### Refused accesses (20_memory.md R62, R64, R65) -/

theorem accessTarget_eq_none_iff {nw : Nat} {acc : BusAccess} :
    accessTarget nw acc = none ↔ acc.size ≠ 4 ∨ acc.addr.toNat % 4 ≠ 0 ∨ regAt nw acc.addr.toNat = none := by
  have hgate : (acc.sizeOk && acc.alignOk) = true ↔ acc.size = 4 ∧ acc.addr.toNat % 4 = 0 := by
    simp [BusAccess.sizeOk, BusAccess.alignOk, addr_aligned]
  rw [accessTarget, ite_eq_right_iff, hgate]
  tauto

variable {s : State} {a : BitVec 13} {d : Word} {x : RegWord} {rest : List Event}

/-- An access that reaches no register word is answered `error`, under reset as well (70_reset_and_hazards.md R210). -/
theorem busAccess_of_no_target {acc : BusAccess} (h : accessTarget s.nw acc = none) :
    busAccess acc s = answerHost .error s := by
  rcases busAccess_cases acc s with ⟨-, herror⟩ | ⟨-, x, htgt, -⟩
  · exact herror
  · simp [h] at htgt

/-- Settles O30: the three reasons are those for which the access reaches no register word. -/
theorem refusedAccessesChangeNothing : Obligations.RefusedAccessesChangeNothing := by
  intro s acc rest hsch hbad
  rw [step_bus hsch, busAccess_of_no_target (s := { s with schedule := rest }) (accessTarget_eq_none_iff.mpr hbad)]
  rfl

/-! ### Reads (20_memory.md R66, R73) -/

theorem readReg_schedule (s : State) (l : List Event) (x : RegWord) :
    readReg { s with schedule := l } x = readReg s x := by
  cases x with
  | cmd | status | ctrl | iters | config => rfl
  | bank y i => cases y <;> rfl
  | result i => rfl

theorem step_bus_read (hr : s.rst = false) (ha : a.toNat % 4 = 0) (hx : regAt s.nw a.toNat = some x)
    (h : s.schedule = .bus ⟨a, 4, .read⟩ :: rest) :
    step s = .next { s with schedule := rest, answer := some (.okData (readReg s x)) } := by
  rw [step_bus h]
  rcases busAccess_cases ⟨a, 4, .read⟩ { s with schedule := rest } with ⟨herror, -⟩ | ⟨-, y, hy, ⟨-, hread⟩ | ⟨d, hop, -⟩⟩
  · simp [hr, accessTarget_aligned, ha, hx] at herror
  · obtain rfl : x = y := by simpa [accessTarget_aligned, ha, hx] using hy
    rw [hread, readReg_schedule]
    rfl
  · cases hop

/-- Settles O31: `step_bus_read`, and the registers by name. -/
theorem readsAnswerTheWordAndChangeNothing : Obligations.ReadsAnswerTheWordAndChangeNothing :=
  ⟨fun _ _ _ _ hr ha hx hsch => step_bus_read hr ha hx hsch,
    fun _ => ⟨rfl, rfl, rfl, rfl, rfl, fun _ => rfl, fun _ => rfl, fun _ => rfl, fun _ => rfl, fun _ => rfl⟩⟩

/-! ### Writes that a busy machine drops (10_state.md R37, 20_memory.md R68, R71) -/

theorem step_bus_write_dropped (hr : s.rst = false) (ha : a.toNat % 4 = 0) (hx : regAt s.nw a.toNat = some x)
    (h : s.schedule = .bus ⟨a, 4, .write d⟩ :: rest) (hb : s.status.busy = true)
    (hprot : x = .cmd ∨ x = .iters ∨ ∃ y i, x = .bank y i) :
    step s = .next { s with schedule := rest, answer := some .ok, status := { s.status with haz := true } } := by
  have hhaz : State.hazardous { s with schedule := rest } ⟨a, 4, .write d⟩ = true :=
    hazardous_iff.mpr ⟨hb, d, x, rfl, (accessTarget_aligned _ _ _ ha).trans hx, hprot⟩
  rw [step_bus h, busAccess_of_hazardous (s := { s with schedule := rest }) hr hhaz]
  rfl

/-! ### Writes to CMD, ITERS and the operand banks (20_memory.md R68, R71) -/

theorem writeReg_cmd_of_idle (hb : s.status.busy = false) : writeReg .cmd d s = accept d s := by
  simp [writeReg, writeCmd, hb]

theorem writeReg_iters_of_idle (hb : s.status.busy = false) : writeReg .iters d s = { s with iters := d } := by
  simp [writeReg, writeIters, hb]

theorem writeReg_bank_of_idle {y : Bank} {i : Nat} (hb : s.status.busy = false) :
    writeReg (.bank y i) d s = s.setBank y ((s.bank y).setWord i d) := by
  simp [writeReg, writeBank, hb]

/-- No draw is pending on an idle machine (10_state.md R33, R38). -/
theorem rndwait_eq_false_of_not_busy (hseq : s.SeqOk) (hb : s.status.busy = false) : s.status.rndwait = false := by
  have hidle := seq_idle_of_not_busy hseq hb
  obtain ⟨-, hwait⟩ := hseq
  simpa [hidle] using hwait

/-- Settles O33: the accept of an idle machine, and the dropped write of a busy one. -/
theorem commandWriteIsAcceptedOrDropped : Obligations.CommandWriteIsAcceptedOrDropped := by
  intro s d rest hr hsch
  refine ⟨fun hb => ?_, fun hb => step_bus_write_dropped hr rfl rfl hsch hb (Or.inl rfl)⟩
  have hstep := step_bus_write hr rfl rfl hsch
  rw [writeReg_cmd_of_idle (s := { s with schedule := rest }) hb] at hstep
  refine ⟨_, hstep, rfl, Bool.and_false _, fun hseq => ?_⟩
  have hwait := rndwait_eq_false_of_not_busy hseq hb
  exact ⟨hwait, hwait⟩

/-- A write to word i of a bank, seen in all four banks at once (10_state.md R21). -/
theorem setBank_setWord_eq (s : State) (y : Bank) (i : Nat) (d : Word) :
    s.setBank y ((s.bank y).setWord i d) =
      { s with
        a := if y = .A then s.a.set i d else s.a
        b := if y = .B then s.b.set i d else s.b
        e := if y = .E then s.e.set i d else s.e
        m := if y = .M then s.m.set i d else s.m } := by
  cases y <;> rfl

theorem bank_answerHost (r : BusAnswer) (s : State) (y : Bank) : (answerHost r s).bank y = s.bank y := by
  cases y <;> rfl

theorem bank_length {y : Bank} (hw : s.WidthOk) : (s.bank y).length = s.nw := by
  obtain ⟨-, -, ha, hb, he, hm, -, -⟩ := hw
  cases y with
  | A => exact ha
  | B => exact hb
  | E => exact he
  | M => exact hm

/-- Settles O36: the write of the one word on an idle machine, and the dropped write on a busy one. -/
theorem itersAndBankWrites : Obligations.ItersAndBankWrites := by
  refine ⟨fun s d rest hr hsch => ⟨fun hb => ?_, fun hb => ?_⟩, fun s addr y i d rest hw hr hi haddr hsch => ?_⟩
  · rw [step_bus_write hr rfl rfl hsch, writeReg_iters_of_idle (s := { s with schedule := rest }) hb]
    rfl
  · exact step_bus_write_dropped hr rfl rfl hsch hb (Or.inr (Or.inl rfl))
  · have hoff : addr.toNat = bankBase y + 4 * i := by cases y <;> exact haddr
    have halign : addr.toNat % 4 = 0 := by
      have := bankBase_aligned y
      omega
    have ⟨_, hnw, _⟩ := hw
    have hreg : regAt s.nw addr.toNat = some (.bank y i) := by rw [hoff, regAt_bank y hnw hi]
    refine ⟨fun hb => ?_, fun hb => step_bus_write_dropped hr halign hreg hsch hb (Or.inr (Or.inr ⟨y, i, rfl⟩))⟩
    have hstep := step_bus_write hr halign hreg hsch
    rw [writeReg_bank_of_idle (s := { s with schedule := rest }) hb] at hstep
    refine ⟨_, hstep, congrArg (answerHost .ok) (setBank_setWord_eq _ y i d), ?_, fun j hj => ?_⟩
    · rw [bank_answerHost, setBank_bank_same]
      exact Operand.word_setWord_same d (hi.trans_eq (bank_length hw).symm)
    · rw [bank_answerHost, setBank_bank_same]
      exact Operand.word_setWord_other _ d hj.symm

/-! ### Writes to STATUS, CTRL, CONFIG and R (20_memory.md R69, R70, R72) -/

/-- A bit is cleared where its 1 is written: a conjunction with the complement of the bit written (R69). -/
theorem writeOneToClear_eq (f : Status) (d : Word) :
    f.writeOneToClear d = { f with done := f.done && !d.getLsbD 1, haz := f.haz && !d.getLsbD 5 } := by
  simp [Status.writeOneToClear, Bool.and_comm]

/-- Settles O34: `writeOneToClear_eq` on the STATUS of the state. -/
theorem statusWriteClearsDoneAndHazOnly : Obligations.StatusWriteClearsDoneAndHazOnly := by
  intro s d rest hr hsch
  rw [step_bus_write hr rfl rfl hsch, ← writeOneToClear_eq]
  rfl

/-- Settles O35: CTRL has the one field IEN. -/
theorem ctrlWriteSetsIenOnly : Obligations.CtrlWriteSetsIenOnly := by
  intro s d rest hr hsch
  rw [step_bus_write hr rfl rfl hsch]
  rfl

/-- Settles O37: CONFIG and the words of R are reached, and a write leaves them. -/
theorem readOnlyWritesAreIgnored : Obligations.ReadOnlyWritesAreIgnored := by
  intro s addr i d rest hr hnw hi haddr hsch
  rcases haddr with rfl | hresult
  · rw [step_bus_write hr rfl rfl hsch]
    rfl
  · have hreg : regAt s.nw addr.toNat = some (.result i) := by rw [hresult, ← regAt_result hnw hi, resultBase]
    rw [step_bus_write hr (by omega) hreg hsch]
    rfl

end Sys2Proof.Machine
end

section
/-! O2, O3, O1, O6: the decoder as equivalences, one for each answer it gives (30_encoding.md R91, R92, R96), and the step on a
state with a command word placed (R95). -/

namespace Sys2Proof.Machine

/-! ### The decoder -/

/-- Settles O2: the words of the five commands, and `decode_eq_command_iff`. -/
theorem decodeAndEncodeAgree : Obligations.DecodeAndEncodeAgree :=
  ⟨⟨rfl, rfl, rfl, rfl, rfl⟩, fun _ _ => decode_eq_command_iff⟩

theorem decodeOp_eq_none_iff {op : BitVec 8} : decodeOp op = none ↔ op = 0x00#8 ∨ 0x06#8 ≤ op := by
  unfold decodeOp
  split_ifs with h1 h2 h3 h4 h5
  iterate 5
    · subst op
      decide
  · simp only [true_iff]
    bv_omega

theorem decode_eq_zeroFieldNotZero_iff {w : Word} : decode w = .illegal .zeroFieldNotZero ↔ cmdZero w ≠ 0#24 := by
  by_cases hz : cmdZero w = 0#24
  · cases hop : decodeOp (cmdOp w) <;> simp [decode, hz, hop]
  · simp [decode, hz]

/-- The opcode is looked at only where the ZERO field is 0 (30_encoding.md R96). -/
theorem decode_eq_unknownOpcode_iff {w : Word} :
    decode w = .illegal .unknownOpcode ↔ cmdZero w = 0#24 ∧ decodeOp (cmdOp w) = none := by
  by_cases hz : cmdZero w = 0#24
  · cases hop : decodeOp (cmdOp w) <;> simp [decode, hz, hop]
  · simp [decode, hz]

/-- Settles O3: the two reasons of the decoder, and the opcodes that `decodeOp` knows nothing of. -/
theorem everyOtherWordIsIllegal : Obligations.EveryOtherWordIsIllegal := by
  intro w
  refine ⟨decode_eq_zeroFieldNotZero_iff, ?_⟩
  rw [decode_eq_unknownOpcode_iff, decodeOp_eq_none_iff]
  rfl

/-- Settles O1: each word is the one of its command, or has the fault that its reason names. -/
theorem opcodeMapWordsDecode : Obligations.OpcodeMapWordsDecode :=
  ⟨decode_encode .mulmod, decode_encode .powmod, decode_encode .isprime, decode_encode .gcd, decode_encode .modinv,
    decode_eq_unknownOpcode_iff.mpr (by decide), decode_eq_unknownOpcode_iff.mpr (by decide),
    decode_eq_unknownOpcode_iff.mpr (by decide), decode_eq_zeroFieldNotZero_iff.mpr (by decide),
    decode_eq_zeroFieldNotZero_iff.mpr (by decide)⟩

/-! ### A placed word (log entry 3) -/

theorem command?_eq_some_iff {x : Decoded} {i : Instr} : x.command? = some i ↔ x = .command i := by
  cases x <;> simp [Decoded.command?]

/-- A row's word of 32 bits is taken as it is. -/
theorem tableWord_of_lt {w : Nat} (hw : w < 2 ^ 32) : tableWord 32 w = BitVec.ofNat 32 w := by
  rw [tableWord, Nat.mod_eq_of_lt hw]

theorem advance_of_start {s : State} {i : Instr} (hph : s.work.ph = .start) (hdec : decode s.cmd = .command i) :
    advance s = exec i s := by
  simp [advance, advanceStart, hph, hdec]

/-- The step after `startCommand` is the engine's, on the state the accept leaves (30_encoding.md R95). -/
theorem step_startCommand {d : Word} {i : Instr} (s : State) (hdec : decode d = .command i) :
    step (startCommand d s) = exec i (accept d { s with rst := false }) :=
  advance_of_start (s := accept d { s with rst := false }) rfl hdec

/-- Settles O6: the placed word is the command's by `decode_eq_command_iff`, and runs by `step_startCommand`. -/
theorem placedWordRunsNext : Obligations.PlacedWordRunsNext := by
  intro s w i hw hdec
  rw [decodeTableWord, command?_eq_some_iff, tableWord_of_lt hw] at hdec
  refine ⟨(decode_eq_command_iff.mp hdec).symm, ?_⟩
  rw [State.withFetchWord, tableWord_of_lt hw, step_startCommand s hdec]
  rfl

end Sys2Proof.Machine
end

section
/-! O39, O38: the host statements as bus accesses (30_encoding.md R100, R101). The access of a statement reaches the register word
it names; `LOAD` writes the words of its value one above the other, so after n of them the bank holds the low n words of the
value below the words it had. -/

namespace Sys2Proof

/-! ### Words written in ascending order (00_scope.md R7) -/

theorem Operand.ofNat_succ_eq_append (n v : Nat) :
    Operand.ofNat (n + 1) v = Operand.ofNat n v ++ [BitVec.ofNat 32 (v / 2 ^ (32 * n))] := by
  induction n generalizing v with
  | zero => simp [Operand.ofNat]
  | succ n ih =>
    have hpow : 2 ^ 32 * 2 ^ (32 * n) = 2 ^ (32 * (n + 1)) := by rw [← Nat.pow_add, Nat.mul_add, Nat.add_comm]
    rw [Operand.ofNat, ih, Nat.div_div_eq_div_mul, hpow]
    rfl

/-- The register after the low n words of a number are written over it (30_encoding.md R101). -/
def Operand.loadLow (v n : Nat) (x : Operand) : Operand := Operand.ofNat n v ++ x.drop n

theorem Operand.loadLow_zero (v : Nat) (x : Operand) : Operand.loadLow v 0 x = x := rfl

theorem Operand.loadLow_length (v : Nat) (x : Operand) : Operand.loadLow v x.length x = Operand.ofNat x.length v := by
  simp [Operand.loadLow]

theorem Operand.setWord_loadLow {v n : Nat} {x : Operand} (h : n < x.length) :
    (Operand.loadLow v n x).setWord n (BitVec.ofNat 32 (v / 2 ^ (32 * n))) = Operand.loadLow v (n + 1) x := by
  rw [Operand.loadLow, Operand.setWord, List.set_append_right _ _ (Operand.length_ofNat n v).le, Operand.length_ofNat,
    Nat.sub_self, List.drop_eq_getElem_cons h, List.set_cons_zero, Operand.loadLow, Operand.ofNat_succ_eq_append,
    List.append_assoc]
  rfl

namespace Machine

/-! ### The accesses a statement makes -/

theorem offsetOf_aligned (x : RegWord) : offsetOf x % 4 = 0 := by
  cases x with
  | cmd | status | ctrl | iters | config => rfl
  | bank b i => simp [offsetOf, Nat.add_mod, bankBase_aligned]
  | result i => simp [offsetOf, Nat.add_mod, resultBase]

/-- The offset of an implemented word fits the 13 address lines (20_memory.md R60, R61). -/
theorem toNat_ofNat_offsetOf {nw : Nat} {x : RegWord} (hnw : nw ≤ 256) (hx : Implemented nw x) :
    (BitVec.ofNat 13 (offsetOf x)).toNat = offsetOf x := by
  apply Nat.mod_eq_of_lt
  cases x with
  | cmd | status | ctrl | iters | config => decide
  | bank b i =>
    have hi : i < nw := hx
    cases b <;> simp only [offsetOf, bankBase] <;> omega
  | result i =>
    have hi : i < nw := hx
    simp only [offsetOf, resultBase]
    omega

theorem regAt_ofNat_offsetOf {nw : Nat} {x : RegWord} (hnw : nw ≤ 256) (hx : Implemented nw x) :
    regAt nw (BitVec.ofNat 13 (offsetOf x)).toNat = some x := by
  rw [toNat_ofNat_offsetOf hnw hx, regAt_offsetOf hnw hx]

theorem getElem?_expandStmt_load {nw j : Nat} (x : Bank) (value : Nat) (hj : j < nw) :
    (expandStmt nw (.load x value))[j]? = some (loadWord x value j) := by
  simp [expandStmt, hj]

theorem getElem?_expandStmt_result {nw j : Nat} (hj : j < nw) :
    (expandStmt nw .result)[j]? = some (busRead (BitVec.ofNat 13 (offsetOf (.result j)))) := by
  simp [expandStmt, offsetOf, hj]

/-- Settles O39: the one write of each short statement, `WAIT` as copies of one read, and word j of `LOAD` and `RESULT`. -/
theorem pseudoStatementsExpand : Obligations.PseudoStatementsExpand := by
  intro nw x value reads k i hnw
  refine ⟨rfl, rfl, rfl, rfl, List.length_replicate, fun acc => List.eq_of_mem_replicate, ?_, ?_, fun j hj => ⟨?_, ?_⟩⟩
  · simp [expandStmt]
  · simp [expandStmt]
  · exact ⟨_, getElem?_expandStmt_load x value hj, regAt_ofNat_offsetOf (x := .bank x j) hnw hj⟩
  · exact ⟨_, getElem?_expandStmt_result hj, regAt_ofNat_offsetOf (x := .result j) hnw hj⟩

/-! ### `LOAD` -/

theorem busAccesses_append (l₁ l₂ : List BusAccess) (s : State) :
    busAccesses (l₁ ++ l₂) s = busAccesses l₂ (busAccesses l₁ s) := by
  induction l₁ generalizing s with
  | nil => rfl
  | cons acc l₁ ih => exact ih _

theorem busAccess_busWrite {s : State} {a : BitVec 13} {d : Word} {x : RegWord} (hr : s.rst = false)
    (ha : a.toNat % 4 = 0) (hx : regAt s.nw a.toNat = some x) :
    busAccess (busWrite a d) s = answerHost .ok (writeReg x d s) := by
  simp [busAccess, busWrite, hr, accessTarget_aligned, ha, hx, accessReg]

variable {s : State} {x : Bank} {value n : Nat}

/-- One write of `LOAD` on an idle machine (20_memory.md R71). -/
theorem busAccess_loadWord (hnw : s.nw ≤ 256) (hr : s.rst = false) (hb : s.status.busy = false) (hn : n < s.nw) :
    busAccess (loadWord x value n) s =
      answerHost .ok (s.setBank x ((s.bank x).setWord n (BitVec.ofNat 32 (value / 2 ^ (32 * n))))) := by
  have hreg := regAt_ofNat_offsetOf (x := .bank x n) hnw hn
  have halign := offsetOf_aligned (.bank x n)
  rw [← toNat_ofNat_offsetOf (x := .bank x n) hnw hn] at halign
  rw [← writeReg_bank_of_idle hb]
  exact busAccess_busWrite hr halign hreg

theorem setBank_answerHost_setBank (s : State) (x : Bank) (r : BusAnswer) (v v' : Operand) :
    (answerHost r (s.setBank x v)).setBank x v' = answerHost r (s.setBank x v') := by
  cases x <;> rfl

/-- The first n + 1 writes of `LOAD`, by induction on n: each is made on the idle machine the one before it leaves. -/
theorem busAccesses_loadWords (hw : s.WidthOk) (hr : s.rst = false) (hb : s.status.busy = false) (hn : n < s.nw) :
    busAccesses ((List.range (n + 1)).map (loadWord x value)) s =
      answerHost .ok (s.setBank x (Operand.loadLow value (n + 1) (s.bank x))) := by
  have ⟨_, hnw, _⟩ := hw
  have hlen : n < (s.bank x).length := hn.trans_eq (bank_length hw).symm
  induction n with
  | zero =>
    rw [← Operand.setWord_loadLow hlen, Operand.loadLow_zero]
    exact busAccess_loadWord hnw hr hb hn
  | succ n ih =>
    rw [List.range_succ, List.map_append, busAccesses_append, ih (by omega) (by omega), ← Operand.setWord_loadLow hlen]
    refine (busAccess_loadWord (n := n + 1) (by simpa) (by simpa) (by simpa) (by simpa)).trans ?_
    rw [bank_answerHost, setBank_bank_same, setBank_answerHost_setBank]
    rfl

theorem busAccesses_load (hw : s.WidthOk) (hr : s.rst = false) (hb : s.status.busy = false) :
    busAccesses (expandStmt s.nw (.load x value)) s = answerHost .ok (s.setBank x (Operand.ofNat s.nw value)) := by
  have ⟨hpos, _⟩ := hw
  have hload := busAccesses_loadWords (x := x) (value := value) hw hr hb (Nat.sub_one_lt_of_lt hpos)
  rw [Nat.sub_add_cancel hpos, ← bank_length (y := x) hw, Operand.loadLow_length] at hload
  rwa [← bank_length (y := x) hw]

/-- Settles O38: `LOAD` replaces the bank by the words of the value, and a value below 2^W is the number of its NW words. -/
theorem loadStatementLoadsTheBank : Obligations.LoadStatementLoadsTheBank := by
  intro s x value hw hr hb hvalue
  refine ⟨_, busAccesses_load hw hr hb, ?_, fun y hy => ?_, ?_⟩
  · rw [bank_answerHost, setBank_bank_same, Operand.val_ofNat_of_lt hvalue]
  · rw [bank_answerHost, setBank_bank_other s _ hy]
  · cases x <;> rfl

end Machine

end Sys2Proof
end

section
/-! O10, O11, O9: what POWMOD and MULMOD with M > 0 leave (40_mulmod_powmod.md R110, R112, R114, R115). Both results are at most M,
so a machine of a legal width holds them whole; the bound M itself is reached, by POWMOD with M = 1 and E = 0. -/

namespace Sys2Proof.Machine

variable {s : State} {i : Instr} {v : Nat} {p n : Bool}

/-! ### A normal completion whose result fits in R (60_exceptions.md R183, 00_scope.md R10) -/

theorem complete_normalCompletion (v : Nat) (p n : Bool) (s : State) : NormalCompletion s (complete v p n s) v p n := rfl

/-- A number at most the value of an operand fits in a register of the operand's width. -/
theorem lt_two_pow_of_le_val {x : Operand} {nw : Nat} (hlen : x.length = nw) (h : v ≤ x.val) : v < 2 ^ (32 * nw) :=
  hlen ▸ h.trans_lt x.val_lt

theorem exec_completes (hexec : exec i s = .next (complete v p n s)) (hfit : s.WidthOk → v < 2 ^ (32 * s.nw)) :
    ∃ t, exec i s = .next t ∧ NormalCompletion s t v p n ∧ (s.WidthOk → t.r.val = v) :=
  ⟨_, hexec, complete_normalCompletion v p n s, fun hw => Operand.val_ofNat_of_lt (hfit hw)⟩

/-- The case of a command whose result is at most M. -/
theorem exec_completes_of_le_modulus (hexec : exec i s = .next (complete v p n s)) (hle : v ≤ s.m.val) :
    ∃ t, exec i s = .next t ∧ NormalCompletion s t v p n ∧ (s.WidthOk → t.r.val = v) :=
  exec_completes hexec fun ⟨_, _, _, _, _, hm, _, _⟩ => lt_two_pow_of_le_val hm hle

/-! ### The commands with M > 0 -/

theorem exec_mulmod (hm : s.m.val ≠ 0) :
    exec .mulmod s = .next (complete (s.a.val * s.b.val % s.m.val) false false s) :=
  if_neg hm

theorem exec_powmod (hm : s.m.val ≠ 0) :
    exec .powmod s = .next (complete (powMod s.a.val s.e.val s.m.val) false false s) :=
  if_neg hm

/-- The modulus itself is the result for an exponent of 0 and a modulus of 1 (R115). -/
theorem powMod_le (b e : Nat) {m : Nat} (hm : 0 < m) : powMod b e m ≤ m := by
  rw [powMod_eq b e m hm]
  split
  · exact hm
  · exact (Nat.mod_lt _ hm).le

/-- Settles O10: POWMOD completes with `pow_mod`, which has the closed form and is at most M. -/
theorem powmodCompletesWithTheClosedForm : Obligations.PowmodCompletesWithTheClosedForm := by
  intro s hm
  have hpos : 0 < s.m.val := Nat.pos_of_ne_zero hm
  rw [← powMod_eq s.a.val s.e.val s.m.val hpos]
  exact exec_completes_of_le_modulus (exec_powmod hm) (powMod_le _ _ hpos)

/-- Settles O11: the closed form read off case by case; above 1 the modulus leaves b ^ 0 = 1 as it is. -/
theorem squareAndMultiplyHasTheClosedForm : Obligations.SquareAndMultiplyHasTheClosedForm := by
  intro b x m hm
  rw [powMod_eq b x m hm]
  refine ⟨fun hx => if_pos hx, fun hx => if_neg hx.ne', fun hm1 => ?_⟩
  split
  · rename_i hx
    rw [hx, pow_zero, Nat.mod_eq_of_lt hm1]
  · rfl

/-- Settles O9: a remainder by M is below M. -/
theorem mulmodCompletesWithTheExactRemainder : Obligations.MulmodCompletesWithTheExactRemainder := by
  intro s hm
  exact exec_completes_of_le_modulus (exec_mulmod hm) (Nat.mod_lt _ (Nat.pos_of_ne_zero hm)).le

end Sys2Proof.Machine
end

section
/-! O27, O17, O18, O19, O20: the answer of the random source (41_isprime.md R141, R142), and each segment of ISPRIME by how it ends:
the edge policy (R131), `ISPRIME_next` after the decomposition (R132, R134) and after a round (R133). -/

namespace Sys2Proof.Machine

variable {s : State} {g : PrimeRegs} {x : Segment}

/-! ### The answer of the random source -/

theorem step_respond {w : Nat} {rest : List Event} (h : s.schedule = .respond w :: rest) :
    step s = .next (respond w { s with schedule := rest }) := by
  simp [step, h, perform]

/-- The answer lines carry a W-bit value as it is (10_state.md R44, log entry 6). -/
theorem rndVal_of_lt {w : Nat} (h : w < 2 ^ (32 * s.nw)) : rndVal s w = w :=
  Nat.mod_eq_of_lt h

theorem respond_of_not_wait {w : Nat} (h : s.seq ≠ .wait) : respond w s = s :=
  if_neg fun hwait => h hwait.2

theorem respond_of_lt {w : Nat} (hrst : s.rst = false) (hwait : s.seq = .wait) (hw : w < 2 ^ (32 * s.nw))
    (hlt : w < s.rndBound.val) : respond w s = takeAnswer w s := by
  rw [respond, if_pos ⟨hrst, hwait⟩, rndVal_of_lt hw, if_neg hlt.not_ge]

theorem respond_of_le {w : Nat} (hrst : s.rst = false) (hwait : s.seq = .wait) (hw : w < 2 ^ (32 * s.nw))
    (hle : s.rndBound.val ≤ w) : respond w s = raiseErr .rng s := by
  rw [respond, if_pos ⟨hrst, hwait⟩, rndVal_of_lt hw, if_pos hle]

/-- Settles O27: the step is `respond`, and its three branches are those of the statement. -/
theorem answerStep : Obligations.AnswerStep := by
  intro s w rest hrst hw hsch
  rw [step_respond hsch]
  refine ⟨fun hne => ?_, fun hwait hlt => ?_, fun hwait hle => ⟨_, rfl, ?_⟩⟩
  · rw [respond_of_not_wait (s := { s with schedule := rest }) hne]
  · rw [respond_of_lt (s := { s with schedule := rest }) hrst hwait hw hlt]
    rfl
  · rw [respond_of_le (s := { s with schedule := rest }) hrst hwait hw hle]
    rfl

/-! ### The segments of ISPRIME on the state (70_reset_and_hazards.md R226) -/

theorem exec_isprime_of_start (hph : s.work.ph = .start) :
    exec .isprime s = .next (endSegment (isprimeStart (isprimeInit s)) s) := by
  simp only [exec, execIsprime, hph]

theorem exec_isprime_of_round (hph : s.work.ph = .round) :
    exec .isprime s = .next (endSegment (isprimeRound s.work.prime) s) := by
  simp only [exec, execIsprime, hph]

theorem endSegment_finish (p : Bool) (s : State) : endSegment (.finish p) s = complete p.toNat p false s := rfl

theorem endSegment_draw (g : PrimeRegs) (s : State) : endSegment (.draw g) s = requestDraw g s := rfl

theorem requestDraw_drawRequested (g : PrimeRegs) (s : State) : DrawRequested s (requestDraw g s) (g.n - 3) := ⟨rfl, rfl⟩

/-- A segment that finishes is a normal completion with PRIME = R[0] (41_isprime.md R130). -/
theorem exec_isprime_completes {p : Bool} (hexec : exec .isprime s = .next (endSegment x s)) (hx : x = .finish p) :
    ∃ t, exec .isprime s = .next t ∧ NormalCompletion s t p.toNat p false :=
  ⟨_, hexec, hx ▸ complete_normalCompletion p.toNat p false s⟩

/-! ### The first segment (41_isprime.md R131, R132) -/

theorem isprimeStart_of_lt_two (h : g.n < 2) : isprimeStart g = .finish false :=
  if_pos h

theorem isprimeStart_of_two_or_three (h : g.n = 2 ∨ g.n = 3) : isprimeStart g = .finish true := by
  rw [isprimeStart, if_neg (by omega), if_pos h]

theorem isprimeStart_of_even (h4 : 4 ≤ g.n) (heven : g.n % 2 = 0) : isprimeStart g = .finish false := by
  rw [isprimeStart, if_neg (by omega), if_neg (by omega), if_pos heven]

theorem isprimeStart_of_odd (h5 : 5 ≤ g.n) (hodd : g.n % 2 = 1) : isprimeStart g = isprimeNext (decompose g) := by
  rw [isprimeStart, if_neg (by omega), if_neg (by omega), if_neg (by omega)]

theorem isprimeNext_of_lt (h : g.k < g.i) : isprimeNext g = .finish true :=
  if_pos h

theorem isprimeNext_of_le (h : g.i ≤ g.k) : isprimeNext g = .draw g :=
  if_neg h.not_gt

/-- Settles O17: the three tests of `ISPRIME_start` that finish. -/
theorem isprimeEdgePolicy : Obligations.IsprimeEdgePolicy := fun _ hph =>
  have hexec := exec_isprime_of_start hph
  ⟨fun h => exec_isprime_completes hexec (isprimeStart_of_lt_two h),
    fun h => exec_isprime_completes hexec (isprimeStart_of_two_or_three h),
    fun h4 heven => exec_isprime_completes hexec (isprimeStart_of_even h4 heven)⟩

/-- Settles O18: round 1 is past the last round of 0, and the edge policy is O17's. -/
theorem isprimeWithoutRoundsSaysPrime : Obligations.IsprimeWithoutRoundsSaysPrime := by
  refine ⟨fun s hph hk => ?_, fun nw => rfl⟩
  obtain ⟨hlow, hsmall, heven⟩ := isprimeEdgePolicy s hph
  refine ⟨fun h5 hodd => ?_, fun h => h.elim hlow fun h => heven h.1 h.2, hsmall⟩
  obtain ⟨-, hdk, hdi, -⟩ := decompose_spec (isprimeInit s) (Nat.le_trans (by decide) h5)
  have hpast : (decompose (isprimeInit s)).k < (decompose (isprimeInit s)).i := by
    rw [hdk, hdi]
    simp [isprimeInit, hk]
  have hfinish : isprimeStart (isprimeInit s) = .finish true :=
    (isprimeStart_of_odd h5 hodd).trans (isprimeNext_of_lt hpast)
  obtain ⟨t, ht, hdone⟩ := exec_isprime_completes (exec_isprime_of_start hph) hfinish
  refine ⟨t, ht, hdone, fun ⟨hnw, _⟩ => ?_⟩
  rw [hdone]
  exact val_ofNat_toNat hnw true

/-- Settles O19: with a round to make, the decomposition is followed by the draw of round 1. -/
theorem isprimeAsksForItsFirstDraw : Obligations.IsprimeAsksForItsFirstDraw := by
  intro s hph hk h5 hodd
  obtain ⟨hn, hdk, hi, hsplit, hr, hs⟩ := decompose_spec (isprimeInit s) (Nat.le_trans (by decide) h5)
  have hround : (decompose (isprimeInit s)).i ≤ (decompose (isprimeInit s)).k := by
    rw [hdk, hi]
    exact Nat.pos_of_ne_zero fun h0 => hk (BitVec.eq_of_toNat_eq h0)
  have hdraw := requestDraw_drawRequested (decompose (isprimeInit s)) s
  rw [hn] at hdraw
  refine ⟨requestDraw (decompose (isprimeInit s)) s, ?_, hdraw, hn, hdk, hi, hsplit, hr, hs hodd⟩
  rw [exec_isprime_of_start hph, isprimeStart_of_odd h5 hodd, isprimeNext_of_le hround, endSegment_draw]

/-! ### A round (41_isprime.md R133, R134) -/

/-- n - 1 = 2^s * r with r odd and s at least 1, the numbers every round of a command works with (R132). -/
def PrimeRegs.Decomposed (g : PrimeRegs) : Prop :=
  g.n - 1 = 2 ^ g.s * g.r ∧ g.r % 2 = 1 ∧ 1 ≤ g.s

theorem isprimeRound_of_composite (hg : g.Decomposed) (h : witnessPasses g.n (g.wdraw + 2) = false) :
    isprimeRound g = .finish false := by
  obtain ⟨hsplit, hr, hs⟩ := hg
  simp [isprimeRound, roundPasses_eq g hsplit hr hs, h]

theorem isprimeRound_of_passes (hg : g.Decomposed) (h : witnessPasses g.n (g.wdraw + 2) = true) :
    isprimeRound g = isprimeNext { g with i := g.i + 1 } := by
  obtain ⟨hsplit, hr, hs⟩ := hg
  simp [isprimeRound, roundPasses_eq g hsplit hr hs, h]

/-- Settles O20: `isprimeRound` by what the witness says, then `isprimeNext` by whether a round is left. -/
theorem isprimeRoundFollowsItsWitness : Obligations.IsprimeRoundFollowsItsWitness := by
  rintro s ⟨-, hph, -, -, -, -, hsplit, hr, hs, -, -⟩
  have hg : s.work.prime.Decomposed := ⟨hsplit, hr, hs⟩
  have hexec := exec_isprime_of_round hph
  refine ⟨fun hcomp => exec_isprime_completes hexec (isprimeRound_of_composite hg hcomp), fun hpass hlast => ?_,
    fun hpass hmore => ?_⟩
  · have hpast : s.work.prime.k < s.work.prime.i + 1 := by omega
    exact exec_isprime_completes hexec ((isprimeRound_of_passes hg hpass).trans (isprimeNext_of_lt hpast))
  · have hleft : s.work.prime.i + 1 ≤ s.work.prime.k := hmore
    rw [isprimeRound_of_passes hg hpass, isprimeNext_of_le hleft, endSegment_draw] at hexec
    exact ⟨_, hexec, requestDraw_drawRequested _ s, rfl, rfl, rfl, rfl, rfl⟩

end Sys2Proof.Machine
end

section
/-! O22: a prime is never declared composite (41_isprime.md R137, 93 G5). By Fermat the power y of a witness has y ^ 2^s = 1 modulo p;
a prime has no square roots of 1 but 1 and p - 1, so a y other than 1 reaches p - 1 before it reaches 1. -/

namespace Sys2Proof.Machine

/-! ### Arithmetic modulo p -/

theorem natCast_powMod (b e : Nat) {m : Nat} (hm : 0 < m) : (powMod b e m : ZMod m) = (b : ZMod m) ^ e := by
  rw [powMod_eq b e m hm]
  split
  · rename_i he
    simp [he]
  · simp

theorem natCast_eq_one_iff {m y : Nat} (hm : 1 < m) (hy : y < m) : (y : ZMod m) = 1 ↔ y = 1 := by
  rw [← Nat.cast_one, ZMod.natCast_eq_natCast_iff', Nat.mod_eq_of_lt hy, Nat.mod_eq_of_lt hm]

theorem natCast_eq_neg_one_iff {m y : Nat} (hm : 0 < m) (hy : y < m) : (y : ZMod m) = -1 ↔ y = m - 1 := by
  have hneg : (-1 : ZMod m) = ((m - 1 : Nat) : ZMod m) := by simp [Nat.cast_pred hm]
  rw [hneg, ZMod.natCast_eq_natCast_iff', Nat.mod_eq_of_lt hy, Nat.mod_eq_of_lt (Nat.sub_one_lt_of_lt hm)]

variable {p y a : Nat}

/-- The square roots of 1 modulo a prime. -/
theorem eq_one_or_pred_of_sq (hp : p.Prime) (hy : y < p) (h : (y : ZMod p) * y = 1) : y = 1 ∨ y = p - 1 := by
  have := Fact.mk hp
  rwa [mul_self_eq_one_iff, natCast_eq_one_iff hp.one_lt hy, natCast_eq_neg_one_iff hp.pos hy] at h

/-! ### The witness -/

/-- The squarings reach p - 1 where they would otherwise reach 1 from a y that is not 1 (41_isprime.md R135). -/
theorem squaringsReach_of_prime (hp : p.Prime) (left : Nat) (hy : y < p) (hy1 : y ≠ 1)
    (hpow : (y : ZMod p) ^ 2 ^ (left + 1) = 1) : squaringsReach p left y = true := by
  induction left generalizing y with
  | zero =>
    have hsq : (y : ZMod p) * y = 1 := by simpa [pow_two] using hpow
    simpa [squaringsReach] using (eq_one_or_pred_of_sq hp hy hsq).resolve_left hy1
  | succ left ih =>
    by_cases hlast : y = p - 1
    · simp [squaringsReach, hlast]
    · have hcast : ((y * y % p : Nat) : ZMod p) = (y : ZMod p) * y := by simp
      have hne : y * y % p ≠ 1 := fun h1 =>
        (eq_one_or_pred_of_sq hp hy (by rw [← hcast, h1, Nat.cast_one])).elim hy1 hlast
      rw [squaringsReach, if_neg hlast, if_neg hne]
      refine ih (Nat.mod_lt _ hp.pos) hne ?_
      rwa [hcast, ← pow_two, ← pow_mul, ← Nat.pow_succ']

/-- `millerS` and `millerR` of an odd n (41_isprime.md R132). -/
theorem miller_spec {n : Nat} (hn : 2 ≤ n) (hodd : n % 2 = 1) :
    n - 1 = 2 ^ millerS n * millerR n ∧ 1 ≤ millerS n := by
  obtain ⟨s, r, hr, hsplit⟩ := Nat.exists_eq_two_pow_mul_odd (n := n - 1) (by omega)
  obtain ⟨hs, hr'⟩ := miller_eq hsplit (Nat.odd_iff.mp hr)
  rw [hs, hr']
  refine ⟨hsplit, Nat.one_le_iff_ne_zero.mpr fun h0 => ?_⟩
  rw [h0, pow_zero, one_mul] at hsplit
  have := Nat.odd_iff.mp hr
  omega

theorem witnessPasses_of_prime (hp : p.Prime) (hodd : p % 2 = 1) (ha : 0 < a) (hap : a < p) :
    witnessPasses p a = true := by
  have := Fact.mk hp
  obtain ⟨hsplit, hs⟩ := miller_spec hp.two_le hodd
  have hunit : (a : ZMod p) ≠ 0 := by
    rw [Ne, ZMod.natCast_eq_zero_iff]
    exact Nat.not_dvd_of_pos_of_lt ha hap
  have hpow : (powMod a (millerR p) p : ZMod p) ^ 2 ^ (millerS p - 1 + 1) = 1 := by
    rw [natCast_powMod a (millerR p) hp.pos, Nat.sub_add_cancel hs, ← pow_mul, Nat.mul_comm, ← hsplit,
      ZMod.pow_card_sub_one_eq_one hunit]
  unfold witnessPasses
  split
  · rfl
  · rename_i h
    exact squaringsReach_of_prime hp (millerS p - 1) (powMod_lt hp.one_lt) (fun h1 => h (Or.inl h1)) hpow

/-! ### All rounds -/

theorem headD_lt {draws : List Nat} {b : Nat} (hb : 0 < b) (h : ∀ w ∈ draws, w < b) : draws.headD 0 < b := by
  cases draws with
  | nil => exact hb
  | cons w ws => exact h w List.mem_cons_self

theorem witnessesPass_of_prime (hp : p.Prime) (h5 : 5 ≤ p) (hodd : p % 2 = 1) (k : Nat) {draws : List Nat}
    (h : ∀ w ∈ draws, w < p - 3) : witnessesPass p k draws = true := by
  induction k generalizing draws with
  | zero => rfl
  | succ k ih =>
    have hw : draws.headD 0 < p - 3 := headD_lt (by omega) h
    have hpass : witnessPasses p (draws.headD 0 + 2) = true :=
      witnessPasses_of_prime hp hodd (by omega) (by omega)
    rw [witnessesPass, if_pos hpass]
    exact ih fun w hmem => h w (List.mem_of_mem_tail hmem)

/-- Settles O22: the edge policy says 1 of 2 and 3, and every larger prime is odd and passes each round. -/
theorem primesAreNeverDeclaredComposite : Obligations.PrimesAreNeverDeclaredComposite := by
  intro p k draws hp h
  rw [isPrime, if_neg hp.two_le.not_gt]
  by_cases hsmall : p = 2 ∨ p = 3
  · rw [if_pos hsmall]
  · have hodd : p % 2 = 1 := hp.eq_two_or_odd.resolve_left fun h2 => hsmall (Or.inl h2)
    have h5 : 5 ≤ p := by
      have := hp.two_le
      omega
    rw [if_neg hsmall, if_neg (by omega)]
    exact witnessesPass_of_prime hp h5 hodd k (h h5)

end Sys2Proof.Machine
end

section
/-! O21: the run of ISPRIME with its draws (41_isprime.md R130, R135, R136). Each draw request is answered and the round made in two
steps, which end in `ISPRIME_next` again or declare n composite; the rounds still to go are those of `is_prime` on the answers
still to come. -/

namespace Sys2Proof.Machine

variable {s : State} {g : PrimeRegs} {w n k j : Nat} {p : Bool} {draws : List Nat} {rest l : List Event}

/-! ### Steps of the engine and of the random source in a run -/

theorem run_succ {u : State} (h : step s = .next u) (k : Nat) :
    Host.Core.run core (k + 1) s = Host.Core.run core k u := by
  have hcore : core.step s = .next u := h
  simp only [Host.Core.run, hcore]

theorem step_advance (hseq : s.seq = .run) (hsch : s.schedule = .advance :: rest) :
    step s = advance { s with schedule := rest } := by
  simp [step, hsch, perform, engineTurn, hseq]

theorem advance_of_round (hph : s.work.ph = .round) : advance s = exec .isprime s := by
  simp [advance, hph]

/-- The accepted command's first step is the first segment (41_isprime.md R130). -/
theorem step_first_segment (hseq : s.seq = .run) (hph : s.work.ph = .start) (hcmd : s.cmd = encode .isprime)
    (hsch : s.schedule = .advance :: l) :
    step s = .next (endSegment (isprimeStart (isprimeInit s)) { s with schedule := l }) := by
  have hdec : decode s.cmd = .command .isprime := hcmd ▸ decode_encode .isprime
  rw [step_advance hseq hsch, advance_of_start (s := { s with schedule := l }) hph hdec]
  exact exec_isprime_of_start (s := { s with schedule := l }) hph

/-- A draw request answered in range is followed by its round (41_isprime.md R133, R141). -/
theorem run_draw (hrst : s.rst = false) (hw : w < g.n - 3) (hfit : g.n < 2 ^ (32 * s.nw)) (k : Nat) :
    Host.Core.run core (k + 2) (requestDraw g { s with schedule := .respond w :: .advance :: l }) =
      Host.Core.run core k (endSegment (isprimeRound (takeAnswer w (requestDraw g s)).work.prime)
        { takeAnswer w (requestDraw g s) with schedule := l }) := by
  have hbound : w < (Operand.ofNat s.nw (g.n - 3)).val := by
    rwa [Operand.val_ofNat_of_lt (by omega)]
  have hanswer : step (requestDraw g { s with schedule := .respond w :: .advance :: l })
      = .next { takeAnswer w (requestDraw g s) with schedule := .advance :: l } := by
    rw [step_respond rfl]
    exact congrArg _ (respond_of_lt (s := requestDraw g { s with schedule := .advance :: l }) hrst rfl
      (by simp only [requestDraw_nw]; omega) hbound)
  have hround : step { takeAnswer w (requestDraw g s) with schedule := .advance :: l }
      = .next (endSegment (isprimeRound (takeAnswer w (requestDraw g s)).work.prime)
          { takeAnswer w (requestDraw g s) with schedule := l }) := by
    rw [step_advance rfl rfl, advance_of_round rfl, exec_isprime_of_round rfl]
  rw [run_succ hanswer, run_succ hround]

/-! ### What a run is to end in -/

/-- The outcome is the normal completion of ISPRIME with result `p` from `s`, with `rest` of the schedule left and everything else
unchanged but RND_BOUND and the hidden registers. -/
def CompletesAs (s : State) (rest : List Event) (p : Bool) (o : Host.Outcome State Fault Refusal) : Prop :=
  ∃ t, o = .next t ∧ NormalCompletion { s with schedule := rest, rndBound := t.rndBound } t p.toNat p false

theorem completesAs_finish (s : State) (rest : List Event) (p : Bool) :
    CompletesAs s rest p (.next (endSegment (.finish p) { s with schedule := rest })) :=
  ⟨_, rfl, rfl⟩

/-- A draw and its answer touch only what a completion overwrites, RND_BOUND and the hidden registers, so a run that completes after
them completes from the request on. -/
theorem completesAs_of_answered_draw (hrst : s.rst = false) (hw : w < g.n - 3) (hfit : g.n < 2 ^ (32 * s.nw))
    (h : CompletesAs (takeAnswer w (requestDraw g s)) rest p
      (Host.Core.run core k (endSegment (isprimeRound (takeAnswer w (requestDraw g s)).work.prime)
        { takeAnswer w (requestDraw g s) with schedule := l }))) :
    CompletesAs s rest p
      (Host.Core.run core (k + 2) (requestDraw g { s with schedule := .respond w :: .advance :: l })) := by
  rw [run_draw hrst hw hfit]
  exact h

/-! ### The rounds still to go (41_isprime.md R135, R136) -/

/-- The events that answer the draws a run still makes. -/
def answerEvents (draws : List Nat) : List Event := draws.flatMap fun w => [.respond w, .advance]

theorem answerEvents_cons (w : Nat) (draws : List Nat) :
    answerEvents (w :: draws) = .respond w :: .advance :: answerEvents draws := rfl

theorem drawSchedule_eq (draws : List Nat) : drawSchedule draws = .advance :: answerEvents draws := rfl

theorem roundsStarted_le (n k : Nat) (draws : List Nat) : roundsStarted n k draws ≤ k := by
  induction k generalizing draws with
  | zero => exact Nat.le_refl 0
  | succ k ih =>
    rw [roundsStarted]
    split
    · exact Nat.succ_le_succ (ih _)
    · exact Nat.succ_le_succ (Nat.zero_le k)

theorem roundsStarted_cons_of_passes (h : witnessPasses n (w + 2) = true) :
    roundsStarted n (k + 1) (w :: draws) = roundsStarted n k draws + 1 :=
  if_pos h

theorem roundsStarted_cons_of_composite (h : witnessPasses n (w + 2) = false) :
    roundsStarted n (k + 1) (w :: draws) = 1 :=
  if_neg (by simp [h])

theorem witnessesPass_cons_of_passes (h : witnessPasses n (w + 2) = true) :
    witnessesPass n (k + 1) (w :: draws) = witnessesPass n k draws :=
  if_pos h

theorem witnessesPass_cons_of_composite (h : witnessPasses n (w + 2) = false) :
    witnessesPass n (k + 1) (w :: draws) = false :=
  if_neg (by simp [h])

/-- From `ISPRIME_next` with `j` rounds to go, the answers to the draws still made complete the command with what `is_prime` says of
those rounds. Induction on `j`: a round that passes ends in `ISPRIME_next` with one round less. -/
theorem run_rounds (hg : g.Decomposed) (hj : g.i + j = g.k + 1) (hlen : j ≤ draws.length)
    (hrange : ∀ w ∈ draws, w < g.n - 3) (hrst : s.rst = false) (hfit : g.n < 2 ^ (32 * s.nw)) :
    CompletesAs s rest (witnessesPass g.n j draws)
      (Host.Core.run core (2 * roundsStarted g.n j draws)
        (endSegment (isprimeNext g)
          { s with schedule := answerEvents (draws.take (roundsStarted g.n j draws)) ++ rest })) := by
  induction j generalizing s g draws with
  | zero =>
    rw [isprimeNext_of_lt (by omega)]
    exact completesAs_finish s rest true
  | succ j ih =>
    obtain _ | ⟨w, draws⟩ := draws
    · simp at hlen
    · have hw : w < g.n - 3 := hrange w List.mem_cons_self
      rw [isprimeNext_of_le (by omega), endSegment_draw]
      have hj' : g.i + 1 + j = g.k + 1 := by omega
      have hg' : (takeAnswer w (requestDraw g s)).work.prime.Decomposed := hg
      cases hpass : witnessPasses g.n (w + 2) with
      | false =>
        rw [roundsStarted_cons_of_composite hpass, witnessesPass_cons_of_composite hpass, List.take_succ_cons,
          List.take_zero, answerEvents_cons]
        refine completesAs_of_answered_draw hrst hw hfit ?_
        rw [isprimeRound_of_composite hg' hpass]
        exact completesAs_finish _ rest false
      | true =>
        rw [roundsStarted_cons_of_passes hpass, witnessesPass_cons_of_passes hpass, List.take_succ_cons,
          answerEvents_cons, Nat.mul_add]
        refine completesAs_of_answered_draw hrst hw hfit ?_
        rw [isprimeRound_of_passes hg' hpass]
        exact ih (s := takeAnswer w (requestDraw g s))
          (g := { (takeAnswer w (requestDraw g s)).work.prime with i := g.i + 1 }) hg hj'
          (by simpa using hlen) (fun w hmem => hrange w (List.mem_cons_of_mem _ hmem)) hrst hfit

/-! ### The whole command -/

/-- Where no draw is made the first segment finishes with `is_prime` (41_isprime.md R131, R135). -/
theorem isprimeStart_of_edge (h : g.n < 5 ∨ g.n % 2 = 0) (k : Nat) (draws : List Nat) :
    isprimeStart g = .finish (isPrime g.n k draws) := by
  unfold isprimeStart isPrime
  split_ifs
  iterate 3 rfl
  omega

theorem isPrime_of_odd (h5 : 5 ≤ n) (hodd : n % 2 = 1) (k : Nat) (draws : List Nat) :
    isPrime n k draws = witnessesPass n k draws := by
  rw [isPrime, if_neg (by omega), if_neg (by omega), if_neg (by omega)]

theorem drawCount_of_edge (h : n < 5 ∨ n % 2 = 0) (k : Nat) (draws : List Nat) : drawCount n k draws = 0 :=
  if_pos h

theorem drawCount_of_odd (h5 : 5 ≤ n) (hodd : n % 2 = 1) (k : Nat) (draws : List Nat) :
    drawCount n k draws = roundsStarted n k draws :=
  if_neg (by omega)

theorem drawCount_le (n k : Nat) (draws : List Nat) : drawCount n k draws ≤ k := by
  rw [drawCount]
  split
  · exact Nat.zero_le k
  · exact roundsStarted_le n k draws

/-- Settles O21: the first segment finishes on the edge, and otherwise ends in `ISPRIME_next` with all rounds to go. -/
theorem isprimeIsTheFunctionOfItsDraws : Obligations.IsprimeIsTheFunctionOfItsDraws := by
  intro s draws rest hwidth hrst hseq hph hcmd hlen hrange hsch
  refine ⟨drawCount_le _ _ _, ?_⟩
  change CompletesAs s rest _ _
  rw [run_succ (step_first_segment hseq hph hcmd hsch)]
  by_cases hedge : s.m.val < 5 ∨ s.m.val % 2 = 0
  · rw [isprimeStart_of_edge (g := isprimeInit s) hedge s.iters.toNat draws, drawCount_of_edge hedge]
    exact completesAs_finish s rest _
  · have h5 : 5 ≤ s.m.val := by omega
    have hodd : s.m.val % 2 = 1 := by omega
    obtain ⟨hn, hk, hi, hsplit, hr, hs⟩ := decompose_spec (isprimeInit s) (Nat.le_trans (by decide) h5)
    have hM : (decompose (isprimeInit s)).n = s.m.val := hn
    have hfit : s.m.val < 2 ^ (32 * s.nw) := by
      obtain ⟨-, -, -, -, -, hm, -, -⟩ := hwidth
      exact lt_two_pow_of_le_val hm le_rfl
    rw [isprimeStart_of_odd (g := isprimeInit s) h5 hodd, drawCount_of_odd h5 hodd, isPrime_of_odd h5 hodd]
    have hrun := run_rounds (g := decompose (isprimeInit s)) (j := s.iters.toNat) (draws := draws) (s := s) (rest := rest)
      ⟨hn ▸ hsplit, hr, hs hodd⟩ (by rw [hi, hk, Nat.add_comm]; rfl) hlen (hM ▸ hrange h5 hodd) hrst (hM ▸ hfit)
    rwa [hM] at hrun

end Sys2Proof.Machine
end

section
/-! O15, O12, O13, O14: the extended-Euclidean engine (42_gcd_modinv.md). The bounds of the inverse loop are kept pass by pass; GCD and
MODINV complete with what `gcd` and `mod_inverse` compute, which fits in R. -/

namespace Sys2Proof.Machine

/-! ### The bounds of the inverse loop (42_gcd_modinv.md R164) -/

/-- A repeated body keeps what it keeps while the condition holds: `Laws.whileLoop_keeps` for the passes counted one by one. -/
theorem iterate_keeps {α : Type} {cond P : α → Prop} {body : α → α} (hstep : ∀ g, cond g → P g → P (body g)) {g : α}
    (h : P g) (k : Nat) (hcond : ∀ j, j < k → cond (body^[j] g)) : P (body^[k] g) := by
  induction k with
  | zero => exact h
  | succ k ih =>
    rw [Function.iterate_succ_apply']
    exact hstep _ (hcond k k.lt_succ_self) (ih fun j hj => hcond j (Nat.lt_succ_of_lt hj))

/-- The unsigned registers of the inverse loop are at most `c`. -/
def InvRegs.UnsignedWithin (c : Nat) (g : InvRegs) : Prop := g.r ≤ c ∧ g.r' ≤ c ∧ g.q ≤ c

theorem invPass_keeps_unsignedWithin {c : Nat} {g : InvRegs} (h : g.UnsignedWithin c) : (invPass g).UnsignedWithin c := by
  obtain ⟨hr, hr', -⟩ := h
  exact ⟨hr', (Nat.sub_le _ _).trans hr, (Nat.div_le_self _ _).trans hr⟩

/-- Settles O15: every pass made keeps `InvLoop`, which bounds t and t', and the common bound of r, r' and q. -/
theorem inverseLoopStaysInItsBounds : Obligations.InverseLoopStaysInItsBounds := by
  intro a n k hn hmade
  obtain ⟨hr, hr', hq⟩ := iterate_keeps (cond := fun g : InvRegs => g.r' ≠ 0) (P := InvRegs.UnsignedWithin (max a n))
    (fun _ _ => invPass_keeps_unsignedWithin) ⟨le_max_right a n, le_max_left a n, Nat.zero_le _⟩ k hmade
  have hinv := iterate_keeps (cond := fun g : InvRegs => g.r' ≠ 0) (P := InvLoop a n) (fun _ => invPass_keeps)
    (invLoop_start hn) k hmade
  exact ⟨hr, hr', hq, hinv.bound, hinv.bound'⟩

/-! ### GCD (42_gcd_modinv.md R161, R162) -/

variable {s : State} {a b n : Nat}

theorem exec_gcd (s : State) : exec .gcd s = .next (complete (Nat.gcd s.a.val s.b.val) false false s) := by
  rw [← gcdLoop_eq]
  rfl

/-- The greatest common divisor is at most the one operand, or is the other. -/
theorem gcd_lt_of_lt {c : Nat} (ha : a < c) (hb : b < c) : Nat.gcd a b < c := by
  rcases Nat.eq_zero_or_pos a with rfl | hpos
  · rwa [Nat.gcd_zero_left]
  · exact (Nat.gcd_le_left b hpos).trans_lt ha

/-- Settles O12: GCD completes with `gcd`, which is below 2^W as both operands are. -/
theorem gcdCompletesWithTheGreatestCommonDivisor : Obligations.GcdCompletesWithTheGreatestCommonDivisor := by
  intro s
  refine exec_completes (exec_gcd s) fun ⟨_, _, ha, hb, _, _, _, _⟩ => ?_
  exact gcd_lt_of_lt (lt_two_pow_of_le_val ha le_rfl) (lt_two_pow_of_le_val hb le_rfl)

/-! ### MODINV (42_gcd_modinv.md R165, R166) -/

theorem exec_modinv (hm : 2 ≤ s.m.val) :
    exec .modinv s = .next (complete (modInverse s.a.val s.m.val).1 false (modInverse s.a.val s.m.val).2 s) :=
  if_neg (Nat.not_lt.mpr hm)

/-- Both results of `mod_inverse`, the inverse and the sentinel, are below the modulus. -/
theorem modInverse_lt (a : Nat) (hn : 2 ≤ n) : (modInverse a n).1 < n := by
  by_cases hco : Nat.gcd a n = 1
  · obtain ⟨-, -, hlt, -⟩ := modInverse_coprime hn hco
    exact hlt
  · rw [modInverse_not_coprime hn hco]
    exact Nat.zero_lt_of_lt hn

theorem modInverse_noinv_iff (a : Nat) (hn : 2 ≤ n) : (modInverse a n).2 = true ↔ 1 < Nat.gcd a n := by
  by_cases hco : Nat.gcd a n = 1
  · obtain ⟨hflag, -⟩ := modInverse_coprime hn hco
    simp [hflag, hco]
  · have hpos : 0 < Nat.gcd a n := Nat.gcd_pos_of_pos_right a (Nat.zero_lt_of_lt hn)
    rw [modInverse_not_coprime hn hco]
    exact iff_of_true rfl (by omega)

/-- An inverse is never 0, so the sentinel is told from every inverse. -/
theorem modInverse_eq_zero_iff (a : Nat) (hn : 2 ≤ n) : (modInverse a n).1 = 0 ↔ (modInverse a n).2 = true := by
  by_cases hco : Nat.gcd a n = 1
  · obtain ⟨hflag, hpos, -⟩ := modInverse_coprime hn hco
    simp [hflag, hpos.ne']
  · simp [modInverse_not_coprime hn hco]

/-- MODINV with M >= 2 is a normal completion with `mod_inverse`, and R holds the value whole. -/
theorem exec_modinv_completes (hm : 2 ≤ s.m.val) :
    ∃ t, exec .modinv s = .next t
      ∧ NormalCompletion s t (modInverse s.a.val s.m.val).1 false (modInverse s.a.val s.m.val).2
      ∧ (s.WidthOk → t.r.val = (modInverse s.a.val s.m.val).1) :=
  exec_completes_of_le_modulus (exec_modinv hm) (modInverse_lt _ hm).le

/-- Settles O13: MODINV completes with `mod_inverse`, which is the inverse of coprime operands. -/
theorem modinvOfCoprimeOperandsIsTheInverse : Obligations.ModinvOfCoprimeOperandsIsTheInverse := by
  intro s hm hco
  obtain ⟨t, hexec, hdone, hval⟩ := exec_modinv_completes hm
  obtain ⟨hflag, hpos, hlt, hinv⟩ := modInverse_coprime hm hco
  rw [hflag] at hdone
  exact ⟨t, _, hexec, hdone, hpos, hlt, hinv, hval⟩

/-- Settles O14: R and NOINV after the completion are the value and the flag of `mod_inverse`. -/
theorem modinvSentinelAndNoinvAgree : Obligations.ModinvSentinelAndNoinvAgree := by
  intro s hw hm
  obtain ⟨t, hexec, hdone, hval⟩ := exec_modinv_completes hm
  have hflag : t.status.noinv = (modInverse s.a.val s.m.val).2 := by rw [hdone]
  rw [← hflag] at hdone
  refine ⟨t, _, hexec, hdone, ?_, ?_⟩
  · rw [hval hw, hflag]
    exact modInverse_eq_zero_iff _ hm
  · rw [hflag]
    exact modInverse_noinv_iff _ hm

end Sys2Proof.Machine
end

section
/-! O8, O7, O16, O26, O45: completions with an error (60_exceptions.md R181 to R185), a dropped write during a command (R194), what
raises `irq` (R191), and that no step stops the machine (R180). -/

namespace Sys2Proof.Machine

variable {s t : State} {i : Instr} {l : List Event}

/-! ### No step stops the machine (60_exceptions.md R180) -/

theorem engineTurn_answers_next (s : State) : ∃ t, engineTurn s = .next t := by
  rcases engineTurn_cases s with ⟨-, h⟩ | ⟨-, i, v, p, n, -, -, h⟩ | ⟨-, c, h⟩ | ⟨-, -, g, -, h⟩ <;> exact ⟨_, h⟩

theorem perform_answers_next (ev : Event) (s : State) : ∃ t, perform ev s = .next t := by
  cases ev with
  | advance => exact engineTurn_answers_next s
  | bus | respond | rst => exact ⟨_, rfl⟩

/-- Settles O8: the engine's turn and every other agent's step answer a next state. -/
theorem stepNeverStops : Obligations.StepNeverStops := by
  intro s
  rcases step_cases s with ⟨-, h⟩ | ⟨ev, rest, -, h⟩ <;> rw [h]
  · exact engineTurn_answers_next s
  · exact perform_answers_next ev _

/-! ### What an error completion leaves (60_exceptions.md R184) -/

theorem raiseErr_errorCompletion (c : ErrorCause) (s : State) : ErrorCompletion s (raiseErr c s) (errorCode c) := rfl

theorem raiseErr_r_val (c : ErrorCause) (s : State) : (raiseErr c s).r.val = 0 := by
  rw [raiseErr_r, ofNat_zero, val_zeroOperand]

/-- Below ERRCODE stand DONE and ERR and nothing else (10_state.md R31). -/
theorem raiseErr_status_word (c : ErrorCause) (h : s.status.haz = false) :
    (raiseErr c s).status.word = 0#20 ++ errorCode c ++ 0x06#8 := by
  cases c <;> simp [Status.word, Status.failed, errorCode, h]

/-! ### Illegal command words (60_exceptions.md R182) -/

/-- The words that R182 names are those the decoder rejects, for one of its two reasons (30_encoding.md R92). -/
theorem decode_illegal {w : Word} (h : cmdZero w ≠ 0#24 ∨ cmdOp w = 0x00#8 ∨ 0x06#8 ≤ cmdOp w) :
    ∃ why, decode w = .illegal why := by
  by_cases hz : cmdZero w = 0#24
  · have hop : decodeOp (cmdOp w) = none := decodeOp_eq_none_iff.mpr (h.resolve_left (not_not.mpr hz))
    exact ⟨_, decode_eq_unknownOpcode_iff.mpr ⟨hz, hop⟩⟩
  · exact ⟨_, decode_eq_zeroFieldNotZero_iff.mpr hz⟩

theorem advance_of_illegal {why : IllegalWord} (hph : s.work.ph = .start) (hdec : decode s.cmd = .illegal why) :
    advance s = .next (raiseErr .illcmd s) := by
  simp [advance, advanceStart, hph, hdec]

/-- Settles O7: the decoder rejects the word, so the engine's step is the error completion ILLCMD. -/
theorem illegalWordCompletesWithIllcmd : Obligations.IllegalWordCompletesWithIllcmd := by
  intro s rest hsch hseq hph hword
  obtain ⟨why, hdec⟩ := decode_illegal hword
  refine ⟨raiseErr .illcmd { s with schedule := rest }, ?_, raiseErr_errorCompletion _ _, raiseErr_r_val _ _, fun hhaz => ?_⟩
  · rw [step_advance hseq hsch, advance_of_illegal (s := { s with schedule := rest }) hph hdec]
  · exact raiseErr_status_word (s := { s with schedule := rest }) .illcmd hhaz

/-! ### DOMAIN (60_exceptions.md R185) -/

theorem exec_mulmod_domain (hm : s.m.val = 0) : exec .mulmod s = .next (raiseErr .domain s) :=
  if_pos hm

theorem exec_powmod_domain (hm : s.m.val = 0) : exec .powmod s = .next (raiseErr .domain s) :=
  if_pos hm

theorem exec_modinv_domain (hm : s.m.val < 2) : exec .modinv s = .next (raiseErr .domain s) :=
  if_pos hm

theorem errcode_of_exec_completes {v : Nat} {p n : Bool} (hdone : exec i s = .next (complete v p n s))
    (h : exec i s = .next t) : t.status.errcode = 0#4 := by
  rw [hdone] at h
  cases h
  rfl

/-- Settles O16: each modulus takes its branch; GCD always completes, and ISPRIME completes or asks for a draw. -/
theorem domainErrorsAreRaisedExactlyOnTheirModuli : Obligations.DomainErrorsAreRaisedExactlyOnTheirModuli := by
  intro s
  have hdomain : ErrorCompletion s (raiseErr .domain s) 2#4 := raiseErr_errorCompletion .domain s
  refine ⟨fun hm => ⟨⟨_, exec_mulmod_domain hm, hdomain⟩,
      _, exec_powmod_domain hm, hdomain, raiseErr_status_word .domain, raiseErr_r_val _ _⟩,
    fun hm => ⟨_, exec_modinv_domain hm, hdomain⟩, fun hm t h => ?_,
    fun hm _ => errcode_of_exec_completes (exec_modinv hm), fun _ => errcode_of_exec_completes (exec_gcd s), fun t h => ?_⟩
  · exact h.elim (errcode_of_exec_completes (exec_mulmod hm)) (errcode_of_exec_completes (exec_powmod hm))
  · rcases execIsprime_cases s with ⟨p, hdone⟩ | ⟨g, -, hdraw⟩
    · exact Or.inl (errcode_of_exec_completes (i := .isprime) hdone h)
    · cases hdraw.symm.trans h
      exact Or.inr ⟨rfl, rfl⟩

/-! ### A dropped write during a command (60_exceptions.md R194) -/

theorem complete_dropWrite (v : Nat) (p n : Bool) (s : State) :
    complete v p n (dropWrite s) = dropWrite (complete v p n s) := rfl

theorem raiseErr_dropWrite (c : ErrorCause) (s : State) : raiseErr c (dropWrite s) = dropWrite (raiseErr c s) := rfl

theorem endSegment_dropWrite (x : Segment) (s : State) : endSegment x (dropWrite s) = dropWrite (endSegment x s) := by
  cases x <;> rfl

/-- The second outcome is the first but for HAZ, which is set in it. -/
def SameButHaz (o o' : Host.Outcome State Fault Refusal) : Prop := ∀ t, o = .next t → o' = .next (dropWrite t)

theorem sameButHaz_next (h : t = dropWrite s) : SameButHaz (.next s) (.next t) := by
  rintro _ ⟨⟩
  rw [h]

/-- Two runs that take the same branch are the same but for HAZ where both branches are. -/
theorem sameButHaz_ite {c : Prop} [Decidable c] {o₁ o₁' o₂ o₂' : Host.Outcome State Fault Refusal}
    (h₁ : SameButHaz o₁ o₁') (h₂ : SameButHaz o₂ o₂') : SameButHaz (if c then o₁ else o₂) (if c then o₁' else o₂') := by
  split
  · exact h₁
  · exact h₂

theorem sameButHaz_execIsprime (s : State) : SameButHaz (execIsprime s) (execIsprime (dropWrite s)) := by
  unfold execIsprime
  rw [dropWrite_work]
  cases s.work.ph with
  | start => exact sameButHaz_next (endSegment_dropWrite _ s)
  | round => exact sameButHaz_next (endSegment_dropWrite _ s)

/-- No command looks at HAZ, to choose its branch or to compute. -/
theorem sameButHaz_exec (i : Instr) (s : State) : SameButHaz (exec i s) (exec i (dropWrite s)) := by
  have hdomain := sameButHaz_next (raiseErr_dropWrite .domain s)
  cases i with
  | isprime => exact sameButHaz_execIsprime s
  | gcd => exact sameButHaz_next (complete_dropWrite _ _ _ s)
  | mulmod | powmod | modinv => exact sameButHaz_ite hdomain (sameButHaz_next (complete_dropWrite _ _ _ s))

/-- Settles O26: setting HAZ is what a dropped write does to the state, before the command and after it. -/
theorem droppedWriteDoesNotDisturbTheCommand : Obligations.DroppedWriteDoesNotDisturbTheCommand :=
  fun i s => sameButHaz_exec i s

/-! ### The interrupt line (60_exceptions.md R191) -/

theorem irq_eq_true_iff : s.irq = true ↔ s.ctrl.ien = true ∧ s.status.done = true :=
  Bool.and_eq_true_iff

/-- A move that raises `irq` is a completion, or a write that sets IEN while DONE = 1. -/
theorem move_raises_irq (h : Move s { s with schedule := l } t) (hlow : s.irq ≠ true) (hhigh : t.irq = true) :
    (s.seq ≠ .idle ∧ t.seq = .idle ∧ t.status.done = true)
      ∨ ∃ acc d rest, s.schedule = .bus acc :: rest ∧ acc.op = .write d ∧ accessTarget s.nw acc = some .ctrl
          ∧ d.getLsbD 0 = true ∧ s.status.done = true := by
  have ⟨hien, hdone⟩ := irq_eq_true_iff.mp hhigh
  cases h with
  | stay | draw | take | answered | drop | iters | rstOff => exact absurd hhigh hlow
  | bank acc d rest y i =>
    cases y <;> exact absurd hhigh hlow
  | accept | rstOn => cases hdone
  | status acc d rest =>
    obtain ⟨-, hdone'⟩ : d.getLsbD 1 = false ∧ s.status.done = true := by simpa using hdone
    exact absurd ((irq_eq_true_iff (s := s)).mpr ⟨hien, hdone'⟩) hlow
  | err _ hseq | done _ _ _ _ hseq | rng _ _ _ hseq => exact Or.inl ⟨by simp [hseq], rfl, rfl⟩
  | ctrl acc d rest hsch hrst hop htgt => exact Or.inr ⟨acc, d, rest, hsch, hop, htgt, hien, hdone⟩

/-- Settles O45: `irq` is that conjunction by definition, and every step is a move. -/
theorem interruptRisesOnlyByCompletionOrEnable : Obligations.InterruptRisesOnlyByCompletionOrEnable := by
  intro s t hstep
  obtain ⟨l, hmove⟩ := step_move hstep
  exact ⟨rfl, fun hlow => move_raises_irq hmove (by simp [hlow])⟩

end Sys2Proof.Machine
end

section
/-! O4, O5, O23, O28, O41: the engine's `Advance` step and when it is enabled (70_reset_and_hazards.md R226), the four commands
that complete in it (R227), what takes the engine out of WAIT (R228), and reset (R210). -/

namespace Sys2Proof.Machine

variable {s : State} {i : Instr} {rest : List Event}

/-! ### When `Advance` is enabled (70_reset_and_hazards.md R226) -/

/-- The engine has a step only while SEQ = RUN. -/
theorem engineTurn_of_not_run (h : s.seq ≠ .run) : engineTurn s = .next s := by
  rcases engineTurn_cases s with ⟨-, hstay⟩ | ⟨hrun, -⟩ | ⟨hrun, -⟩ | ⟨hrun, -⟩
  · exact hstay
  all_goals exact absurd hrun h

theorem engineTurn_of_run (h : s.seq = .run) : engineTurn s = advance s := by
  simp [engineTurn, h]

theorem step_of_empty_schedule (hsch : s.schedule = []) : step s = engineTurn s := by
  simp [step, hsch]

theorem step_engineTurn (hsch : s.schedule = .advance :: rest) : step s = engineTurn { s with schedule := rest } := by
  simp [step, hsch, perform]

/-- Settles O5: the turn of an engine with no step, and `advance` in phase ROUND. -/
theorem advanceIsEnabledExactlyInRun : Obligations.AdvanceIsEnabledExactlyInRun := by
  intro s rest hsch
  refine ⟨fun hne => ?_, fun hrun hph => ?_⟩
  · rw [step_engineTurn hsch, engineTurn_of_not_run (s := { s with schedule := rest }) hne]
  · rw [step_advance hrun hsch, advance_of_round (s := { s with schedule := rest }) hph]

/-- Settles O4: with an entry of its own or on an empty schedule the engine's turn is `advance`, which runs what CMD decodes to. -/
theorem stepRunsTheDecodedCommand : Obligations.StepRunsTheDecodedCommand := by
  intro s i hrun hph hdec
  refine ⟨fun rest hsch => ?_, fun hsch => ?_⟩
  · rw [step_advance hrun hsch, advance_of_start (s := { s with schedule := rest }) hph hdec]
  · rw [step_of_empty_schedule hsch, engineTurn_of_run hrun, advance_of_start hph hdec]

/-! ### The commands without a draw (70_reset_and_hazards.md R227, 60_exceptions.md R180) -/

/-- The one end of a command that is not a completion is the draw request of ISPRIME. -/
theorem exec_completes_without_draw (s : State) (hi : i ≠ .isprime) :
    ∃ t, exec i s = .next t ∧ t.seq = .idle ∧ t.status.busy = false ∧ t.status.done = true ∧ t.cmd = s.cmd
      ∧ t.schedule = s.schedule := by
  rcases exec_cases i s with ⟨v, p, n, -, hend⟩ | ⟨-, -, hend⟩ | ⟨hprime, -⟩
  · exact ⟨_, hend, rfl, rfl, rfl, rfl, rfl⟩
  · exact ⟨_, hend, rfl, rfl, rfl, rfl, rfl⟩
  · exact absurd hprime hi

/-- The write of a word to CMD on an idle machine is its accept (20_memory.md R68). -/
theorem step_cmd_write_of_idle {d : Word} (hr : s.rst = false) (hb : s.status.busy = false)
    (hsch : s.schedule = .bus ⟨0x0000#13, 4, .write d⟩ :: rest) :
    step s = .next (answerHost .ok (accept d { s with schedule := rest })) := by
  rw [step_bus_write hr rfl rfl hsch, writeReg_cmd_of_idle (s := { s with schedule := rest }) hb]

/-- Settles O23: the accept leaves SEQ = RUN in phase START, so the engine's turn runs the command, which completes. -/
theorem fourCommandsCompleteInOneAdvance : Obligations.FourCommandsCompleteInOneAdvance := by
  intro s i rest hi hr hb hsch
  have haccept := step_cmd_write_of_idle hr hb hsch
  have hengine : step (answerHost .ok (accept (encode i) { s with schedule := .advance :: rest })) =
      exec i (answerHost .ok (accept (encode i) { s with schedule := rest })) := by
    rw [step_advance rfl rfl]
    exact advance_of_start rfl (decode_encode i)
  obtain ⟨t, hexec, hdone⟩ := exec_completes_without_draw (answerHost .ok (accept (encode i) { s with schedule := rest })) hi
  refine ⟨t, ?_, hdone⟩
  rw [run_succ haccept, run_succ (hengine.trans hexec)]
  rfl

/-! ### WAIT (70_reset_and_hazards.md R228) -/

/-- Settles O28: the other moves need SEQ = RUN or BUSY = 0, or are an answer or an assertion of `rst`; those left touch neither SEQ
nor any register named but the flags HAZ and DONE. -/
theorem onlyAnswerOrResetLeavesWait : Obligations.OnlyAnswerOrResetLeavesWait := by
  intro s t hseq hwait hnoAnswer hnoReset hstep
  obtain ⟨hbusyIff, hrndwaitIff⟩ := hseq
  have hbusy : s.status.busy = true := hbusyIff.mpr (Or.inr hwait)
  have hrndwait : s.status.rndwait = true := hrndwaitIff.mpr hwait
  obtain ⟨l, hmove⟩ := step_move hstep
  cases hmove with
  | stay | answered | drop | status | ctrl | rstOff =>
    exact ⟨hwait, hbusy, hrndwait, rfl, rfl, rfl, rfl, rfl, rfl, rfl, rfl, rfl⟩
  | err _ hrun | done _ _ _ _ hrun | draw _ hrun => cases hwait.symm.trans hrun
  | rng w rest hsch | take w rest hsch => exact absurd hsch (hnoAnswer w rest)
  | accept _ _ _ _ _ _ _ hidle | iters _ _ _ _ _ _ _ hidle | bank _ _ _ _ _ _ _ _ _ hidle =>
    cases hbusy.symm.trans hidle
  | rstOn rest hsch => exact absurd hsch (hnoReset rest)

/-! ### Reset (70_reset_and_hazards.md R210) -/

theorem step_rst {asserted : Bool} (hsch : s.schedule = .rst asserted :: rest) :
    step s = .next (driveReset asserted { s with schedule := rest }) := by
  simp [step, hsch, perform]

theorem busAccess_of_rst (acc : BusAccess) (hr : s.rst = true) : busAccess acc s = answerHost .error s :=
  if_pos hr

theorem respond_of_rst (w : Nat) (hr : s.rst = true) : respond w s = s :=
  if_neg fun ⟨hreleased, _⟩ => Bool.false_ne_true (hreleased.symm.trans hr)

/-- With the registers at their reset values the NTE is idle and drives no output (10_state.md R50). -/
theorem outputs_of_atReset (h : s.AtReset) :
    s.seq = .idle ∧ s.status.busy = false ∧ s.irq = false ∧ s.rndReq = false := by
  obtain ⟨-, -, -, -, -, -, hstatus, hctrl, -, hidle, -⟩ := h
  exact ⟨hidle, by rw [hstatus]; rfl, by rw [State.irq, hctrl]; rfl, by rw [State.rndReq, hstatus]; rfl⟩

/-- Settles O41: the step drives `rst`, and while it is asserted an access and an answer take their refusing branch. -/
theorem resetAtAnyTime : Obligations.ResetAtAnyTime := by
  intro s rest
  refine ⟨fun hsch => ⟨_, step_rst hsch, rfl⟩, fun acc hr hsch => ?_, fun w hr hsch => ?_,
    fun hsch => ⟨_, step_rst hsch, rfl, fun hr hres => ?_⟩⟩
  · rw [step_bus hsch, busAccess_of_rst (s := { s with schedule := rest }) acc hr]
    rfl
  · rw [step_respond hsch, respond_of_rst (s := { s with schedule := rest }) w hr]
  · have hat : s.AtReset := hres hr
    obtain ⟨hidle, hbusy, hirq, hreq⟩ := outputs_of_atReset hat
    exact ⟨hidle, hbusy, hirq, hreq, hat⟩

end Sys2Proof.Machine
end
